-- ==== Sys2Proof/Word.lean ====
section
/-! DEFINITION. The words of the block: bytes, 16-bit words, addresses, byte sequences and the 20-byte header (00_scope.md R8, R15, R16). -/

namespace Sys2Proof

/-- One byte of a datagram, a header or a payload (R16). -/
abbrev Byte := BitVec 8

/-- A 16-bit word of the header (R43). -/
abbrev Half := BitVec 16

/-- A 32-bit IPv4 address (R8, R19). -/
abbrev Addr := BitVec 32

/-- A byte sequence, offset 0 first on the wire (R16). -/
abbrev Bytes := List Byte

/-- A header: exactly 20 bytes (R7, R60); a sequence of another length cannot be presented (R73). -/
abbrev Header := Vector Byte 20

end Sys2Proof
end

