-- ==== Sys2Proof/Config.lean ====
section
/-! DEFINITION. What is fixed for the block's life: the constants of 00_scope.md section 3 and the two parameters a model takes as arguments (R11, R12, R192). -/

namespace Sys2Proof

/-- `HEADER_LEN` (R7). -/
abbrev headerLen : Nat := 20

/-- `PREFIX_MAX` (R9). -/
abbrev prefixMax : Nat := 32

/-- `INITIAL_TTL` (R10). -/
abbrev initialTtl : Byte := 64#8

/-- `MAX_DGRAM_LEN` (R13). -/
abbrev maxDgramLen : Nat := 65535

/-- The version/IHL byte `(4<<4) | 5` (R14, R61). -/
abbrev versionIhl : Byte := 0x45#8

/-- The parameters of the block, fixed for its life (R192).  They are a field of the state which no step
changes, so that a statement about every state holds for every choice of them. -/
structure Config where
  /-- `ROUTE_CAPACITY`, a natural number, at least 1 (R12). -/
  routeCapacity : Nat
  /-- `SUPPORTED_PROTO`, the one supported transport identifier (R11). -/
  supportedProto : Byte
  deriving DecidableEq, Repr

/-- The bound R12 puts on `ROUTE_CAPACITY`. -/
abbrev Config.wf (c : Config) : Prop := 1 ≤ c.routeCapacity

/-- The parameters of the block that `State.reset` describes.  `SUPPORTED_PROTO = 6` is the default R11
gives (log 5).  DESIGN CHOICE, unsafe: `ROUTE_CAPACITY = 4`; the spec leaves it OPEN, and 4 is the one
capacity its test vectors name (log 4). -/
def Config.default : Config := { routeCapacity := 4, supportedProto := 6#8 }

end Sys2Proof
end

