-- ==== Sys2Proof/Syntax.lean ====
section
/-! DEFINITION. The commands of the block, one constructor per row of the opcode table, with their typed operand bundles (30_encoding.md R70, R72, R73). -/

namespace Sys2Proof

/-- A route entry: network, prefix length, next hop (10_state.md R20, R27).  A prefix length of 33 to 63
can be presented, and is refused by `SET_ROUTES` (R73). -/
structure RouteEntry where
  net  : Addr
  plen : BitVec 6
  nh   : Addr
  deriving DecidableEq, Repr

/-- The operands of `ENCODE`, in the source's order, each exactly as wide as its header field (R72, R97). -/
structure HeaderFields where
  dscp  : BitVec 6
  ecn   : BitVec 2
  tlen  : Half
  ident : Half
  flags : BitVec 3
  frag  : BitVec 13
  ttl   : Byte
  proto : Byte
  ck    : Half
  src   : Addr
  dst   : Addr
  deriving DecidableEq, Repr

/-- The commands (R70).  `VERIFY` is another name of `CHECKSUM` (R82). -/
inductive Instr where
  /-- `01 DECODE` datagram `B` (R91). -/
  | decode (B : Bytes)
  /-- `02 ENCODE` dscp, ecn, tlen, ident, flags, frag, ttl, proto, ck, src, dst (R97). -/
  | encode (f : HeaderFields)
  /-- `03 CHECKSUM` header `H`, exactly 20 bytes (R101). -/
  | checksum (H : Header)
  /-- `10 SET_ROUTES` entry list `E` (R113). -/
  | setRoutes (E : List RouteEntry)
  /-- `11 LOOKUP` address `a` (R117). -/
  | lookup (a : Addr)
  /-- `20 SET_LOCAL_ADDR` address `a` (R131). -/
  | setLocalAddr (a : Addr)
  /-- `21 REGISTER_UL` (R132). -/
  | registerUl
  /-- `30 CLASSIFY` datagram `B` (R141). -/
  | classify (B : Bytes)
  /-- `31 RECEIVE` `ck_skip`, datagram `B` (R143). -/
  | receive (ckSkip : Bool) (B : Bytes)
  /-- `32 SEND` `ck_skip`, destination, payload `P` (R159). -/
  | send (ckSkip : Bool) (dst : Addr) (P : Bytes)
  deriving DecidableEq, Repr

/-- The ten legal opcodes (R70). -/
inductive Opcode where
  | decode | encode | checksum | setRoutes | lookup
  | setLocalAddr | registerUl | classify | receive | send
  deriving DecidableEq, Repr

/-- The opcode a command is issued under. -/
def Instr.opcode : Instr → Opcode
  | .decode _ => .decode
  | .encode _ => .encode
  | .checksum _ => .checksum
  | .setRoutes _ => .setRoutes
  | .lookup _ => .lookup
  | .setLocalAddr _ => .setLocalAddr
  | .registerUl => .registerUl
  | .classify _ => .classify
  | .receive _ _ => .receive
  | .send _ _ _ => .send

end Sys2Proof
end

