-- ==== Sys2Proof/WellFormed.lean ====
section
/-! DEFINITION. Which commands can be written down as a listing: their counts and lengths fit the listing's 4-byte number (30_encoding.md R83).  Every other bound of R72 and R73 is in the operand types. -/

namespace Sys2Proof

/-- A length or count that a 4-byte number holds (R83). -/
def fitsLength (n : Nat) : Bool := decide (n < 2 ^ 32)

/-- The command has a listing (R83).  The meanings are defined for the other commands too: R73 leaves the
lengths of `B` and `P` unconstrained (log 15). -/
def Instr.wf : Instr → Bool
  | .decode B => fitsLength B.length
  | .encode _ => true
  | .checksum _ => true
  | .setRoutes E => fitsLength E.length
  | .lookup _ => true
  | .setLocalAddr _ => true
  | .registerUl => true
  | .classify B => fitsLength B.length
  | .receive _ B => fitsLength B.length
  | .send _ _ P => fitsLength P.length

end Sys2Proof
end

