-- ==== Sys2Proof/Decode.lean ====
section
/-! DEFINITION. The command decoder and encoder: opcodes (30_encoding.md R70, R71, R74) and listing bytes (R83), with the byte-order helpers of 20_memory.md R42. -/

namespace Sys2Proof

/-! Byte order: most significant byte at the lowest offset (R42). -/

/-- The value of two bytes, the first the more significant. -/
def join16 (b1 b0 : Byte) : Half := b1 ++ b0

/-- The value of four bytes, the first the most significant. -/
def join32 (b3 b2 b1 b0 : Byte) : Addr := b3 ++ b2 ++ b1 ++ b0

/-- Byte `k` of a value, byte 0 the least significant. -/
def byteAt {w : Nat} (v : BitVec w) (k : Nat) : Byte := v.extractLsb' (8 * k) 8

/-- A 16-bit value as two bytes. -/
def be16 (v : Half) : Bytes := [byteAt v 1, byteAt v 0]

/-- A 32-bit value as four bytes. -/
def be32 (v : Addr) : Bytes := [byteAt v 3, byteAt v 2, byteAt v 1, byteAt v 0]

/-! Opcodes. -/

/-- The opcode table (R70). -/
def Opcode.code : Opcode → Byte
  | .decode       => 0x01#8
  | .encode       => 0x02#8
  | .checksum     => 0x03#8
  | .setRoutes    => 0x10#8
  | .lookup       => 0x11#8
  | .setLocalAddr => 0x20#8
  | .registerUl   => 0x21#8
  | .classify     => 0x30#8
  | .receive      => 0x31#8
  | .send         => 0x32#8

/-- The ten rows of the opcode table. -/
def Opcode.all : List Opcode :=
  [.decode, .encode, .checksum, .setRoutes, .lookup,
   .setLocalAddr, .registerUl, .classify, .receive, .send]

/-- The opcode of a command byte, or none for the 246 illegal values (R74). -/
def Opcode.ofByte (b : Byte) : Option Opcode := Opcode.all.find? (fun o => o.code == b)

/-! Reading a listing.  Each reader answers the value and the bytes after it, or why the bytes are no
command (R83). -/

/-- Why listing bytes are not a command (R83). -/
inductive ListingReject where
  /-- The bytes end before the operands do (log 2). -/
  | truncated
  /-- An unused high bit of an operand is not zero (R83). -/
  | padding
  /-- A `ck_skip` byte is neither `00` nor `01` (R83). -/
  | ckSkip
  deriving DecidableEq, Repr

/-- What a reader answers. -/
abbrev Read (α : Type) := Except ListingReject (α × Bytes)

/-- The value first, then what is read after it. -/
def Read.andThen {α β : Type} (r : Read α) (f : α → Bytes → Read β) : Read β :=
  match r with
  | .ok (a, bs) => f a bs
  | .error why => .error why

def readByte : Bytes → Read Byte
  | b :: bs => .ok (b, bs)
  | [] => .error .truncated

/-- A 16-bit operand: 2 bytes. -/
def readHalf : Bytes → Read Half
  | b1 :: b0 :: bs => .ok (join16 b1 b0, bs)
  | _ => .error .truncated

/-- An address or a 32-bit length: 4 bytes. -/
def readAddr : Bytes → Read Addr
  | b3 :: b2 :: b1 :: b0 :: bs => .ok (join32 b3 b2 b1 b0, bs)
  | _ => .error .truncated

/-- An operand of `w` bits whose unused high bits must be zero, taken from a wider value. -/
def narrow {n : Nat} (w : Nat) (v : BitVec n) (bs : Bytes) : Read (BitVec w) :=
  if v.toNat < 2 ^ w then .ok (v.setWidth w, bs) else .error .padding

/-- A 6-, 3- or 2-bit operand: 1 byte. -/
def readBits (w : Nat) (bs : Bytes) : Read (BitVec w) :=
  (readByte bs).andThen fun b bs =>
  narrow w b bs

/-- A 13-bit operand: 2 bytes. -/
def readFrag (bs : Bytes) : Read (BitVec 13) :=
  (readHalf bs).andThen fun v bs =>
  narrow 13 v bs

/-- `ck_skip`: `00` false, `01` true. -/
def readBool (bs : Bytes) : Read Bool :=
  (readByte bs).andThen fun b bs =>
  if b = 0#8 then .ok (false, bs) else if b = 1#8 then .ok (true, bs) else .error .ckSkip

/-- A byte sequence: a 4-byte length, then its bytes. -/
def readBytes (bs : Bytes) : Read Bytes :=
  (readAddr bs).andThen fun n bs =>
  if n.toNat ≤ bs.length then .ok (bs.take n.toNat, bs.drop n.toNat) else .error .truncated

/-- The 20 bytes of `H`. -/
def readHeader (bs : Bytes) : Read Header :=
  if h : headerLen ≤ bs.length then
    .ok (⟨(bs.take headerLen).toArray, by simpa using h⟩, bs.drop headerLen)
  else .error .truncated

/-- One entry: `net` 4, `plen` 1, `nh` 4. -/
def readEntry (bs : Bytes) : Read RouteEntry :=
  (readAddr bs).andThen fun net bs =>
  (readBits 6 bs).andThen fun plen bs =>
  (readAddr bs).andThen fun nh bs =>
  .ok (⟨net, plen, nh⟩, bs)

/-- The entries after a count. -/
def readEntries : Nat → Bytes → Read (List RouteEntry)
  | 0, bs => .ok ([], bs)
  | n + 1, bs =>
    (readEntry bs).andThen fun e bs =>
    (readEntries n bs).andThen fun es bs =>
    .ok (e :: es, bs)

/-- The operands of `ENCODE`. -/
def readFields (bs : Bytes) : Read HeaderFields :=
  (readBits 6 bs).andThen fun dscp bs =>
  (readBits 2 bs).andThen fun ecn bs =>
  (readHalf bs).andThen fun tlen bs =>
  (readHalf bs).andThen fun ident bs =>
  (readBits 3 bs).andThen fun flags bs =>
  (readFrag bs).andThen fun frag bs =>
  (readByte bs).andThen fun ttl bs =>
  (readByte bs).andThen fun proto bs =>
  (readHalf bs).andThen fun ck bs =>
  (readAddr bs).andThen fun src bs =>
  (readAddr bs).andThen fun dst bs =>
  .ok (⟨dscp, ecn, tlen, ident, flags, frag, ttl, proto, ck, src, dst⟩, bs)

/-- The operands an opcode names, and only those (R72, R83). -/
def readOperands : Opcode → Bytes → Read Instr
  | .decode, bs =>
    (readBytes bs).andThen fun B bs =>
    .ok (.decode B, bs)
  | .encode, bs =>
    (readFields bs).andThen fun f bs =>
    .ok (.encode f, bs)
  | .checksum, bs =>
    (readHeader bs).andThen fun H bs =>
    .ok (.checksum H, bs)
  | .setRoutes, bs =>
    (readAddr bs).andThen fun n bs =>
    (readEntries n.toNat bs).andThen fun E bs =>
    .ok (.setRoutes E, bs)
  | .lookup, bs =>
    (readAddr bs).andThen fun a bs =>
    .ok (.lookup a, bs)
  | .setLocalAddr, bs =>
    (readAddr bs).andThen fun a bs =>
    .ok (.setLocalAddr a, bs)
  | .registerUl, bs => .ok (.registerUl, bs)
  | .classify, bs =>
    (readBytes bs).andThen fun B bs =>
    .ok (.classify B, bs)
  | .receive, bs =>
    (readBool bs).andThen fun skip bs =>
    (readBytes bs).andThen fun B bs =>
    .ok (.receive skip B, bs)
  | .send, bs =>
    (readBool bs).andThen fun skip bs =>
    (readAddr bs).andThen fun dst bs =>
    (readBytes bs).andThen fun P bs =>
    .ok (.send skip dst P, bs)

/-! The decoder. -/

/-- What the next bytes of the command input are. -/
inductive Decoded where
  /-- No command has been issued. -/
  | idle
  /-- A legal command, and the bytes after it. -/
  | command (i : Instr) (rest : Bytes)
  /-- A command with an illegal opcode: only the opcode byte belongs to it (R74: it reads no operand; log 20). -/
  | illegal (opcode : Byte) (rest : Bytes)
  /-- Bytes that are not a command (R83). -/
  | refused (why : ListingReject)
  deriving DecidableEq, Repr

/-- The decoder, total on any bytes.  The opcode is checked before anything else (R182). -/
def decode : Bytes → Decoded
  | [] => .idle
  | op :: bs =>
    match Opcode.ofByte op with
    | none => .illegal op bs
    | some o =>
      match readOperands o bs with
      | .ok (i, rest) => .command i rest
      | .error why => .refused why

/-- The bytes left after the next command. -/
def Decoded.rest : Decoded → Bytes
  | .idle => []
  | .command _ rest => rest
  | .illegal _ rest => rest
  | .refused _ => []

/-! The encoder (R83). -/

/-- An operand of at most 8 bits: 1 byte, unused high bits zero. -/
def writeBits {w : Nat} (v : BitVec w) : Bytes := [v.setWidth 8]

/-- A 13-bit operand: 2 bytes, high bits zero. -/
def writeFrag (v : BitVec 13) : Bytes := be16 (v.setWidth 16)

/-- `ck_skip`: 1 byte. -/
def writeBool (b : Bool) : Bytes := [if b then 1#8 else 0#8]

/-- A byte sequence: a 4-byte length, then its bytes. -/
def writeBytes (B : Bytes) : Bytes := be32 (BitVec.ofNat 32 B.length) ++ B

/-- One entry: 9 bytes. -/
def writeEntry (e : RouteEntry) : Bytes := be32 e.net ++ writeBits e.plen ++ be32 e.nh

def writeFields (f : HeaderFields) : Bytes :=
  writeBits f.dscp ++ writeBits f.ecn ++ be16 f.tlen ++ be16 f.ident ++ writeBits f.flags ++
  writeFrag f.frag ++ [f.ttl, f.proto] ++ be16 f.ck ++ be32 f.src ++ be32 f.dst

/-- The operands of a command, in the order of its layout. -/
def writeOperands : Instr → Bytes
  | .decode B => writeBytes B
  | .encode f => writeFields f
  | .checksum H => H.toList
  | .setRoutes E => be32 (BitVec.ofNat 32 E.length) ++ E.flatMap writeEntry
  | .lookup a => be32 a
  | .setLocalAddr a => be32 a
  | .registerUl => []
  | .classify B => writeBytes B
  | .receive skip B => writeBool skip ++ writeBytes B
  | .send skip dst P => writeBool skip ++ be32 dst ++ writeBytes P

/-- The listing of a command: its opcode byte, then its operands (R83). -/
def encode (i : Instr) : Bytes := i.opcode.code :: writeOperands i

/-! The opcode table's words. -/

/-- The longest instruction whose counts are zero: `ENCODE`, 22 bytes (R83). -/
def tableBytes : Nat := 22

/-- The bytes of a table word: byte `k` is bits `8k+7` to `8k`, and every byte past `nbits` is zero. -/
def bytesOfTableWord (nbits w : Nat) : Bytes :=
  (List.range tableBytes).map fun k =>
    if 8 * k < nbits then BitVec.ofNat 8 (w / 2 ^ (8 * k)) else 0#8

/-- The instruction the decoder reads from a word of the opcode table. -/
def decodeTableWord (nbits w : Nat) : Option Instr :=
  match decode (bytesOfTableWord nbits w) with
  | .command i _ => some i
  | _ => none

end Sys2Proof
end

