-- ==== Sys2Proof/Machine/State.lean ====
section
/-! DEFINITION. The state of the block (10_state.md), what an operation returns and emits (30_encoding.md R75 to R80), and how a step can stop. -/

namespace Sys2Proof.Machine

/-! What an operation returns. -/

/-- The status every command returns exactly one of (R79). -/
inductive Status where
  | ok | delivered | forwarded
  | decodeError | noRoute | ttlExpired | unsupportedProtocol | noConsumer
  | noLocalAddress | payloadTooLarge
  | configError
  | illegalCommand
  deriving DecidableEq, Repr

/-- The dispatch state of a datagram (R130, R140). -/
inductive Class where
  | deliver | forward
  deriving DecidableEq, Repr

/-- Why `SET_ROUTES` refused a list (R114). -/
inductive ConfigReason where
  | prefixRange | capacity
  deriving DecidableEq, Repr

/-- The ten values of `DECODE` (R80, R93). -/
structure DecodedFields where
  dscp    : BitVec 6
  ecn     : BitVec 2
  ident   : Half
  flags   : BitVec 3
  frag    : BitVec 13
  ttl     : Byte
  proto   : Byte
  src     : Addr
  dst     : Addr
  payload : Bytes
  deriving DecidableEq, Repr

/-- The result values of a command (R80). -/
inductive Result where
  /-- Nothing but the status. -/
  | none
  /-- `DECODE`, when `OK`. -/
  | fields (d : DecodedFields)
  /-- `ENCODE`. -/
  | header (H : Header)
  /-- `CHECKSUM`. -/
  | checksum (c : Half)
  /-- `LOOKUP`, when `OK`. -/
  | nextHop (a : Addr)
  /-- `CLASSIFY`, when `OK`. -/
  | dispatch (c : Class)
  /-- `SET_ROUTES`, when `CONFIG_ERROR`: its `info`. -/
  | configInfo (index : Nat) (reason : ConfigReason)
  deriving DecidableEq, Repr

/-- An output event. -/
inductive Event where
  /-- `LinkSend(bytes, nexthop)` (R75). -/
  | linkSend (bytes : Bytes) (nexthop : Addr)
  /-- `UlDeliver(src, dst, payload)` (R76). -/
  | ulDeliver (src dst : Addr) (payload : Bytes)
  deriving DecidableEq, Repr

/-- All that one operation gives back: its status, its results, and at most one event (R35, R50). -/
structure Response where
  status : Status
  result : Result
  event  : Option Event
  deriving DecidableEq, Repr

/-! The state. -/

/-- The configuration record `CFG`: the whole architectural state (R20).  `ROUTE_COUNT` is the length of
`routes`; entries past it are not part of the table and are not held (R26, R32; log 11). -/
structure Cfg where
  /-- `LOCAL_VALID` (R24). -/
  localValid : Bool
  /-- `LOCAL_ADDR` (R25). -/
  localAddr : Addr
  /-- `ROUTE[0..ROUTE_COUNT-1]`, in table order (R26). -/
  routes : List RouteEntry
  /-- `UL_REG` (R29). -/
  ulReg : Bool
  deriving DecidableEq, Repr

/-- `ROUTE_COUNT` (R26). -/
abbrev Cfg.routeCount (c : Cfg) : Nat := c.routes.length

/-- The machine.  `cfg` is the block's state; `config` its parameters, which no step changes; `input` and
`out` are the model's own fields, the commands still to be issued and what the operations so far have given
back.  The block reads no field of `out` (R35; log 1). -/
structure State where
  config : Config
  cfg : Cfg
  /-- The merged command input as listing bytes, next command first (R46, R83; log 2). -/
  input : Bytes
  /-- The observation of the run: one response per operation, oldest first (R35, R202). -/
  out : List Response
  deriving DecidableEq, Repr

/-! How a step stops. -/

/-- No operation of the block stops the machine: every error is a status, and the next command is accepted
as usual (R170), so there is no fault (log 10). -/
inductive Fault where
  deriving DecidableEq, Repr

/-- Why a step has no meaning. -/
inductive Refusal where
  /-- A command without a meaning in this model; raised by no arm of `exec`.  Safe. -/
  | notModelled (mnemonic : String)
  /-- The next input bytes are not a command (R83: a transcriber refuses them, and they never reach the
  block); raised by `step`.  Safe. -/
  | notACommand (why : ListingReject)
  deriving DecidableEq, Repr

/-- What a step or an operation answers. -/
abbrev Answer := Host.Outcome State Fault Refusal

/-! Reset. -/

/-- `CFG` after reset (R34, R190).  DESIGN CHOICE: `LOCAL_ADDR` is unspecified and unobservable; here it is
zero (log 3). -/
def Cfg.reset : Cfg := { localValid := false, localAddr := 0#32, routes := [], ulReg := false }

/-- The block of given parameters after reset: no operation in progress, no event pending (R191), no
command issued yet (R190). -/
def State.resetWith (c : Config) : State := { config := c, cfg := Cfg.reset, input := [], out := [] }

/-- The machine right after reset, at the default parameters (logs 4, 5, 7). -/
def State.reset : State := State.resetWith Config.default

end Sys2Proof.Machine
end

