-- ==== Sys2Proof/Machine/Ops.lean ====
section
/-! DEFINITION. The shared operations: the next command (20_memory.md R46), ending an operation normally, and ending it with an error (00_scope.md R17; 60_exceptions.md R170). -/

namespace Sys2Proof.Machine

/-- The next command of the single command input (R46). -/
def fetch (s : State) : Decoded := decode s.input

/-- The command has been taken from the input. -/
def State.withInput (s : State) (rest : Bytes) : State := { s with input := rest }

/-- `CFG` is written (R17). -/
def State.withCfg (s : State) (c : Cfg) : State := { s with cfg := c }

/-- One operation's response joins the observation, after all earlier ones (R35, R50). -/
def State.respond (s : State) (r : Response) : State := { s with out := s.out ++ [r] }

/-- `return <Status>(results)`, with the event emitted, if any: `CFG` writes and the event take effect
together (R17, R47).  The operation's writes are in `s` already. -/
def finish (st : Status) (res : Result) (ev : Option Event) (s : State) : Answer :=
  .next (s.respond ⟨st, res, ev⟩)

/-- `raise <Status>(info)`: the one way an error ends an operation.  No state is written and no event
emitted; the status is the only record, and the next command is accepted as usual (R17, R170, R183).
There is no return from it (R184). -/
def raise (st : Status) (info : Result) (s : State) : Answer :=
  finish st info none s

/-- A command with an illegal opcode (R74, R180). -/
def illegalCommand (s : State) : Answer := raise .illegalCommand .none s

end Sys2Proof.Machine
end

