-- ==== Sys2Proof/Machine/Operands.lean ====
section
/-! DEFINITION. Operand forms: byte sequences read by offset (00_scope.md R16), the header's fields taken apart and put together (30_encoding.md R60 to R69; 40_codec.md R93, R96). -/

namespace Sys2Proof.Machine

/-- `MemRead(B, off, 2)`, defined only inside the sequence (R16, R42). -/
def memRead16 (B : Bytes) (off : Nat) (h : off + 2 ≤ B.length) : Half :=
  join16 (B[off]'(by omega)) (B[off + 1]'(by omega))

/-- `MemRead(B, off, 4)`, defined only inside the sequence (R16, R42). -/
def memRead32 (B : Bytes) (off : Nat) (h : off + 4 ≤ B.length) : Addr :=
  join32 (B[off]'(by omega)) (B[off + 1]'(by omega)) (B[off + 2]'(by omega)) (B[off + 3]'(by omega))

/-- `DecodeFields(B)`, defined when `|B| >= 20` (R93). -/
def decodeFields (B : Bytes) (h : headerLen ≤ B.length) : DecodedFields :=
  have h : 20 ≤ B.length := h
  let w := memRead16 B 6 (by omega)
  { dscp    := (B[1]'(by omega)).extractLsb' 2 6
    ecn     := (B[1]'(by omega)).extractLsb' 0 2
    ident   := memRead16 B 4 (by omega)
    flags   := w.extractLsb' 13 3
    frag    := w.extractLsb' 0 13
    ttl     := B[8]'(by omega)
    proto   := B[9]'(by omega)
    src     := memRead32 B 12 (by omega)
    dst     := memRead32 B 16 (by omega)
    payload := B.drop headerLen }

/-- `EncodeFields(dscp, ecn, tlen, ident, flags, frag, ttl, proto, ck, src, dst)` (R96). -/
def encodeFields (f : HeaderFields) : Header :=
  let w : Half := f.flags ++ f.frag
  #v[versionIhl,
     f.dscp ++ f.ecn,
     byteAt f.tlen 1, byteAt f.tlen 0,
     byteAt f.ident 1, byteAt f.ident 0,
     byteAt w 1, byteAt w 0,
     f.ttl,
     f.proto,
     byteAt f.ck 1, byteAt f.ck 0,
     byteAt f.src 3, byteAt f.src 2, byteAt f.src 1, byteAt f.src 0,
     byteAt f.dst 3, byteAt f.dst 2, byteAt f.dst 1, byteAt f.dst 0]

/-- The ten 16-bit words of a header, word `k` being `MemRead(H, 2k, 2)` (R43, R60). -/
def headerWords (H : Header) : List Half :=
  [join16 H[0] H[1], join16 H[2] H[3], join16 H[4] H[5], join16 H[6] H[7], join16 H[8] H[9],
   join16 H[10] H[11], join16 H[12] H[13], join16 H[14] H[15], join16 H[16] H[17], join16 H[18] H[19]]

end Sys2Proof.Machine
end

