-- ==== Sys2Proof/Machine/Flags.lean ====
section
/-! DEFINITION. The block keeps no flags (10_state.md R23).  Here stand the tests an operation's status comes from, the numbers of the statuses, and the checksum arithmetic (30_encoding.md R79; 40_codec.md R92, R99, R100; 41_forwarding.md R114; 42_engine.md R151, R164). -/

namespace Sys2Proof.Machine

/-! Codes. -/

/-- The status codes (R79). -/
def Status.code : Status → Byte
  | .ok                  => 0x00#8
  | .delivered           => 0x01#8
  | .forwarded           => 0x02#8
  | .decodeError         => 0x10#8
  | .noRoute             => 0x11#8
  | .ttlExpired          => 0x12#8
  | .unsupportedProtocol => 0x13#8
  | .noConsumer          => 0x14#8
  | .noLocalAddress      => 0x20#8
  | .payloadTooLarge     => 0x21#8
  | .configError         => 0x30#8
  | .illegalCommand      => 0xFF#8

/-- The class codes (R80, R140). -/
def Class.code : Class → Nat
  | .deliver => 0
  | .forward => 1

/-- The reason codes (R114). -/
def ConfigReason.code : ConfigReason → Nat
  | .prefixRange => 1
  | .capacity    => 2

/-! Tests. -/

/-- `DecodeOk(B)`: not short, not too long, and version 4 with no options; it reads nothing else (R92). -/
abbrev DecodeOk (B : Bytes) : Prop :=
  headerLen ≤ B.length ∧ B.length ≤ maxDgramLen ∧ B.head? = some versionIhl

/-- The TTL of a forwarded datagram, an exact integer with no wrap-around (R151). -/
def decrementedTtl (ttl : Byte) : Int := (ttl.toNat : Int) - 1

/-- The prefix length is one a table may hold (R27). -/
abbrev RouteLegal (e : RouteEntry) : Prop := e.plen.toNat ≤ prefixMax

/-- The index of the first entry whose prefix length is out of range (R114). -/
def badPrefix (E : List RouteEntry) : Option Nat := E.findIdx? (fun e => ! decide (RouteLegal e))

/-- Why `SET_ROUTES` refuses a list, if it does: capacity is checked first (R113, R114, R182). -/
def routesError (capacity : Nat) (E : List RouteEntry) : Option (Nat × ConfigReason) :=
  if E.length > capacity then some (capacity, .capacity)
  else (badPrefix E).map (fun i => (i, .prefixRange))

/-! One's-complement arithmetic. -/

/-- The end-around carry, at most `fuel` times: the carry out of 16 bits is added back while there is one
(R99).  Two rounds are enough for ten words (log 17). -/
def foldCarries : Nat → Nat → Nat
  | 0, s => s
  | fuel + 1, s => if s > 0xFFFF then foldCarries fuel ((s &&& 0xFFFF) + (s >>> 16)) else s

/-- The exact sum of the ten words of a header (R99). -/
def wordSum (H : Header) : Nat := ((headerWords H).map BitVec.toNat).sum

/-- `OnesSum(H)` (R99). -/
def onesSum (H : Header) : Half := BitVec.ofNat 16 (foldCarries 2 (wordSum H))

/-- `Checksum16(H)` (R100). -/
def checksum16 (H : Header) : Half := ~~~ onesSum H

/-- One addition with the carry added back at once; R99 says that summing so gives `OnesSum`. -/
def onesAdd (a b : Half) : Half :=
  if a.toNat + b.toNat > 0xFFFF then a + b + 1#16 else a + b

end Sys2Proof.Machine
end

