-- ==== Sys2Proof/Machine/Codec.lean ====
section
/-! DEFINITION. The header codec: DECODE, ENCODE, CHECKSUM (40_codec.md). -/

namespace Sys2Proof.Machine

/-- `DECODE` (R91). -/
def execDecode (B : Bytes) (s : State) : Answer :=
  if h : DecodeOk B then finish .ok (.fields (decodeFields B h.1)) none s
  else raise .decodeError .none s

/-- `ENCODE` (R97): `tlen` and `ck` are written as given (R98). -/
def execEncode (f : HeaderFields) (s : State) : Answer :=
  finish .ok (.header (encodeFields f)) none s

/-- `CHECKSUM` (R101): the bytes are summed as given. -/
def execChecksum (H : Header) (s : State) : Answer :=
  finish .ok (.checksum (checksum16 H)) none s

end Sys2Proof.Machine
end

