-- ==== Sys2Proof/Machine/Forwarding.lean ====
section
/-! DEFINITION. The forwarding table: matching, SET_ROUTES, LOOKUP (41_forwarding.md). -/

namespace Sys2Proof.Machine

/-- `Mask(p)`, for `p <= 32`: the `p` most significant bits are 1 (R111; log 16). -/
def mask (p : Nat) : Addr := BitVec.ofNat 32 ((2 ^ p - 1) <<< (prefixMax - p))

/-- `Contains(e, a)`, for a legal entry: equality on the prefix bits, on both sides masked (R112). -/
def contains (e : RouteEntry) (a : Addr) : Bool :=
  a &&& mask e.plen.toNat == e.net &&& mask e.plen.toNat

/-- What a lookup finds: a next hop, or no route, which is no address value (R116, R119). -/
inductive Lookup where
  | route (nh : Addr)
  | noRoute
  deriving DecidableEq, Repr

/-- One entry of the scan: it becomes the best when it contains the address and its prefix is strictly
longer than the best so far (R116), so that of equals the first in table order stays (R118). -/
def lpmStep (a : Addr) (best : Option RouteEntry) (e : RouteEntry) : Option RouteEntry :=
  if contains e a then
    match best with
    | none => some e
    | some b => if e.plen > b.plen then some e else some b
  else best

/-- `Lpm(T, a)`: longest-prefix match (R116). -/
def lpm (T : List RouteEntry) (a : Addr) : Lookup :=
  match T.foldl (lpmStep a) none with
  | none => .noRoute
  | some e => .route e.nh

/-- `SET_ROUTES` (R113): the whole list is refused, or the whole table replaced (R115). -/
def execSetRoutes (E : List RouteEntry) (s : State) : Answer :=
  match routesError s.config.routeCapacity E with
  | some (i, reason) => raise .configError (.configInfo i reason) s
  | none => finish .ok .none none (s.withCfg { s.cfg with routes := E })

/-- `LOOKUP` (R117). -/
def execLookup (a : Addr) (s : State) : Answer :=
  match lpm s.cfg.routes a with
  | .route nh => finish .ok (.nextHop nh) none s
  | .noRoute => finish .noRoute .none none s

end Sys2Proof.Machine
end

