-- ==== Sys2Proof/Machine/Engine.lean ====
section
/-! DEFINITION. The network layer engine: SET_LOCAL_ADDR, REGISTER_UL, CLASSIFY, RECEIVE, SEND (42_engine.md). -/

namespace Sys2Proof.Machine

/-! Configuration. -/

/-- `SET_LOCAL_ADDR` (R131). -/
def execSetLocalAddr (a : Addr) (s : State) : Answer :=
  finish .ok .none none (s.withCfg { s.cfg with localValid := true, localAddr := a })

/-- `REGISTER_UL` (R132). -/
def execRegisterUl (s : State) : Answer :=
  finish .ok .none none (s.withCfg { s.cfg with ulReg := true })

/-! Classification. -/

/-- `IsLocal(a)`: equality with a local address that has been assigned, and nothing else (R133, R134). -/
def isLocal (c : Cfg) (a : Addr) : Bool := c.localValid && a == c.localAddr

/-- `Classify`, of the destination address (R140, R142). -/
def classify (c : Cfg) (dst : Addr) : Class := if isLocal c dst then .deliver else .forward

/-- `CLASSIFY` (R141): it reads the destination address, bytes 16 to 19, and no other field (R142). -/
def execClassify (B : Bytes) (s : State) : Answer :=
  if h : DecodeOk B then
    finish .ok (.dispatch (classify s.cfg (memRead32 B 16 h.1))) none s
  else raise .decodeError .none s

/-! Sending. -/

/-- The final header: the checksum is computed from scratch over the header with its checksum field zero
(R103, R155, R163), or left zero when enforcement is skipped. -/
def sealHeader (ckSkip : Bool) (f : HeaderFields) : Header :=
  let H0 := encodeFields { f with ck := 0#16 }
  let ck := if ckSkip then 0#16 else checksum16 H0
  encodeFields { f with ck := ck }

/-- The total length a header with this payload carries (R63, R154, R162). -/
def totalLength (payload : Bytes) : Half := BitVec.ofNat 16 (headerLen + payload.length)

/-- A whole datagram handed to the link layer (R75, R156, R165). -/
def linkSend (ckSkip : Bool) (f : HeaderFields) (payload : Bytes) (nh : Addr) : Event :=
  .linkSend ((sealHeader ckSkip f).toList ++ payload) nh

/-- The header of a forwarded datagram, before its checksum: the received fields, with the decremented TTL
and the total length of what is sent (R154). -/
def forwardFields (d : DecodedFields) (ttl : Byte) : HeaderFields :=
  { dscp := d.dscp, ecn := d.ecn, tlen := totalLength d.payload, ident := d.ident, flags := d.flags,
    frag := d.frag, ttl := ttl, proto := d.proto, ck := 0#16, src := d.src, dst := d.dst }

/-- The header of a datagram that originates here, before its checksum (R14, R162). -/
def originFields (proto : Byte) (src dst : Addr) (P : Bytes) : HeaderFields :=
  { dscp := 0#6, ecn := 0#2, tlen := totalLength P, ident := 0#16, flags := 0#3,
    frag := 0#13, ttl := initialTtl, proto := proto, ck := 0#16, src := src, dst := dst }

/-! Receive. -/

/-- Host mode (R145 to R148): the TTL and the checksum are not looked at. -/
def receiveLocal (d : DecodedFields) (s : State) : Answer :=
  if d.proto ≠ s.config.supportedProto then raise .unsupportedProtocol .none s
  else if s.cfg.ulReg = false then raise .noConsumer .none s
  else finish .delivered .none (some (.ulDeliver d.src d.dst d.payload)) s

/-- Router mode (R149 to R158): TTL expiry has priority over no route (R152). -/
def receiveRemote (ckSkip : Bool) (d : DecodedFields) (s : State) : Answer :=
  let ttl1 := decrementedTtl d.ttl
  if ttl1 ≤ 0 then raise .ttlExpired .none s
  else
    match lpm s.cfg.routes d.dst with
    | .noRoute => raise .noRoute .none s
    | .route nh =>
      finish .forwarded .none
        (some (linkSend ckSkip (forwardFields d (BitVec.ofInt 8 ttl1)) d.payload nh)) s

/-- `RECEIVE` (R143). -/
def execReceive (ckSkip : Bool) (B : Bytes) (s : State) : Answer :=
  if h : DecodeOk B then
    let d := decodeFields B h.1
    match classify s.cfg d.dst with
    | .deliver => receiveLocal d s
    | .forward => receiveRemote ckSkip d s
  else raise .decodeError .none s

/-! Send. -/

/-- `SEND` (R159): the failures in the order of R166.  There is no loopback (R167). -/
def execSend (ckSkip : Bool) (dst : Addr) (P : Bytes) (s : State) : Answer :=
  match lpm s.cfg.routes dst with
  | .noRoute => raise .noRoute .none s
  | .route nh =>
    if s.cfg.localValid = false then raise .noLocalAddress .none s
    else if P.length > maxDgramLen - headerLen then raise .payloadTooLarge .none s
    else
      finish .ok .none
        (some (linkSend ckSkip (originFields s.config.supportedProto s.cfg.localAddr dst P) P nh)) s

end Sys2Proof.Machine
end

