-- ==== Sys2Proof/Machine/Dispatch.lean ====
section
/-! DEFINITION. One command is one operation, executed to completion (20_memory.md R46). -/

namespace Sys2Proof.Machine

def exec (i : Instr) (s : State) : Host.Outcome State Fault Refusal :=
  match i with
  | .decode B => Sys2Proof.Machine.execDecode B s
  | .encode f => Sys2Proof.Machine.execEncode f s
  | .checksum H => Sys2Proof.Machine.execChecksum H s
  | .setRoutes E => Sys2Proof.Machine.execSetRoutes E s
  | .lookup a => Sys2Proof.Machine.execLookup a s
  | .setLocalAddr a => Sys2Proof.Machine.execSetLocalAddr a s
  | .registerUl => Sys2Proof.Machine.execRegisterUl s
  | .classify B => Sys2Proof.Machine.execClassify B s
  | .receive ckSkip B => Sys2Proof.Machine.execReceive ckSkip B s
  | .send ckSkip dst P => Sys2Proof.Machine.execSend ckSkip dst P s

end Sys2Proof.Machine
end

