-- ==== Sys2Proof/Machine/Step.lean ====
section
/-! DEFINITION. One step: the next command of the command input is taken and executed (20_memory.md R46; 60_exceptions.md R189). -/

namespace Sys2Proof.Machine

/-- One step.  With no command issued the block holds `CFG` and does nothing (R189; log 6); bytes that are
no command never reach it (R83; log 2). -/
def step (s : State) : Host.Outcome State Fault Refusal :=
  match fetch s with
  | .idle => .next s
  | .command i rest => exec i (s.withInput rest)
  | .illegal _ rest => illegalCommand (s.withInput rest)
  | .refused why => .refused (.notACommand why)

/-- The instruction of a table word is the next command; what was pending follows it (log 18).  Only the
bytes the instruction has are put there. -/
def State.withFetchWord (s : State) (nbits w : Nat) : State :=
  let bytes := bytesOfTableWord nbits w
  s.withInput (bytes.take (bytes.length - (decode bytes).rest.length) ++ s.input)

end Sys2Proof.Machine
end

