-- ==== Sys2Proof/Safety.lean ====
section
/-! DEFINITION. What a run of the block must keep, and the words the statements are said in: the invariant of 10_state.md R28, well-formed outputs (30_encoding.md R75 to R79), bytes on the wire as numbers, and runs. -/

namespace Sys2Proof.Machine

/-! The invariant. -/

/-- The invariant of R28, with the bound of R12: the capacity is at least 1, the table is within it, and
every entry is legal. -/
abbrev State.Inv (s : State) : Prop :=
  s.config.wf ∧ s.cfg.routeCount ≤ s.config.routeCapacity ∧ ∀ e ∈ s.cfg.routes, RouteLegal e

/-! Bytes on the wire, as numbers (R42).  They are used only at offsets inside the sequence. -/

/-- The byte at an offset. -/
def wireByte (B : Bytes) (i : Nat) : Nat := (B.getD i 0#8).toNat

/-- The 16-bit number at an offset, most significant byte first. -/
def wireHalf (B : Bytes) (i : Nat) : Nat := 256 * wireByte B i + wireByte B (i + 1)

/-- The 32-bit number at an offset, most significant byte first. -/
def wireAddr (B : Bytes) (i : Nat) : Nat := 65536 * wireHalf B i + wireHalf B (i + 2)

/-- The exact sum of the ten 16-bit words at offsets 0 to 18 (R99). -/
def wireSum (B : Bytes) : Nat := ((List.range 10).map fun k => wireHalf B (2 * k)).sum

/-- The number in `1..0xFFFF` congruent to `S` modulo `0xFFFF`, or 0 when `S` is 0 (R99). -/
def foldedSum (S : Nat) : Nat := if S = 0 then 0 else (S - 1) % 65535 + 1

/-- Two byte sequences of one length that agree outside the given offsets. -/
def agreeExcept (offs : List Nat) (B B' : Bytes) : Prop :=
  B.length = B'.length ∧ ∀ i, i ∉ offs → B[i]? = B'[i]?

/-! The forwarding table. -/

/-- The `plen` most significant bits of the address are those of the network (R111, R112). -/
abbrev inPrefix (e : RouteEntry) (a : Addr) : Prop :=
  a.toNat / 2 ^ (32 - e.plen.toNat) = e.net.toNat / 2 ^ (32 - e.plen.toNat)

/-- Entry `i` contains the address, no entry that contains it has a longer prefix, and no earlier one has
one as long (R116, R118). -/
def bestAt (T : List RouteEntry) (a : Addr) (i : Nat) : Prop :=
  ∃ e, T[i]? = some e ∧ inPrefix e a ∧
    ∀ j e', T[j]? = some e' → inPrefix e' a →
      e'.plen.toNat ≤ e.plen.toNat ∧ (j < i → e'.plen.toNat < e.plen.toNat)

/-! Outputs. -/

/-- The operation completed: `OK`, `DELIVERED` or `FORWARDED`.  Every other status is an error (R79, R171). -/
def Status.success : Status → Bool
  | .ok | .delivered | .forwarded => true
  | _ => false

/-- A whole datagram of this block: a 20-byte header whose first byte is `45` and whose total length is the
number of bytes, at most 65535 of them (R13, R60, R61, R63). -/
abbrev WholeDatagram (B : Bytes) : Prop :=
  headerLen ≤ B.length ∧ B.length ≤ maxDgramLen ∧ B.head? = some versionIhl ∧ wireHalf B 2 = B.length

/-- The event fits the status: `LinkSend` carries a whole datagram and comes with `OK` or `FORWARDED`,
`UlDeliver` comes with `DELIVERED`, and without an event neither `DELIVERED` nor `FORWARDED` is returned
(R75, R76, R79). -/
def Response.wf (r : Response) : Prop :=
  match r.event with
  | some (.linkSend B _) => (r.status = .ok ∨ r.status = .forwarded) ∧ WholeDatagram B
  | some (.ulDeliver _ _ P) => r.status = .delivered ∧ headerLen + P.length ≤ maxDgramLen
  | none => r.status ≠ .delivered ∧ r.status ≠ .forwarded

/-- The status, the result values and the event are ones the command may give (R79, R80, R75, R76). -/
def Response.fits (i : Instr) (r : Response) : Prop :=
  match i with
  | .decode _ => r.event = none ∧
      (r.status = .ok ∧ (∃ d, r.result = .fields d) ∨ r.status = .decodeError ∧ r.result = .none)
  | .encode _ => r.event = none ∧ r.status = .ok ∧ ∃ H, r.result = .header H
  | .checksum _ => r.event = none ∧ r.status = .ok ∧ ∃ c, r.result = .checksum c
  | .setRoutes _ => r.event = none ∧
      (r.status = .ok ∧ r.result = .none ∨
        r.status = .configError ∧ ∃ index reason, r.result = .configInfo index reason)
  | .lookup _ => r.event = none ∧
      (r.status = .ok ∧ (∃ nh, r.result = .nextHop nh) ∨ r.status = .noRoute ∧ r.result = .none)
  | .setLocalAddr _ => r.event = none ∧ r.status = .ok ∧ r.result = .none
  | .registerUl => r.event = none ∧ r.status = .ok ∧ r.result = .none
  | .classify _ => r.event = none ∧
      (r.status = .ok ∧ (∃ c, r.result = .dispatch c) ∨ r.status = .decodeError ∧ r.result = .none)
  | .receive _ _ => r.result = .none ∧
      (r.status = .delivered ∧ (∃ src dst P, r.event = some (.ulDeliver src dst P)) ∨
        r.status = .forwarded ∧ (∃ B nh, r.event = some (.linkSend B nh)) ∨
        r.event = none ∧
          r.status ∈ [.decodeError, .unsupportedProtocol, .noConsumer, .ttlExpired, .noRoute])
  | .send _ _ _ => r.result = .none ∧
      (r.status = .ok ∧ (∃ B nh, r.event = some (.linkSend B nh)) ∨
        r.event = none ∧ r.status ∈ [.noRoute, .noLocalAddress, .payloadTooLarge])

/-- Two configurations agree on the fields the command reads (R33). -/
def readsAgree (i : Instr) (c d : Cfg) : Prop :=
  match i with
  | .decode _ | .encode _ | .checksum _ | .setRoutes _ | .setLocalAddr _ | .registerUl => True
  | .lookup _ => c.routes = d.routes
  | .classify _ => c.localValid = d.localValid ∧ c.localAddr = d.localAddr
  | .receive _ _ => c = d
  | .send _ _ _ => c.localValid = d.localValid ∧ c.localAddr = d.localAddr ∧ c.routes = d.routes

/-- Every operation of the run so far gave a well-formed response. -/
def State.OutputsOk (s : State) : Prop := ∀ r ∈ s.out, r.wf

/-- The events of the run so far, in order (R50). -/
def State.events (s : State) : List Event := s.out.filterMap Response.event

/-! Runs. -/

/-- What has been observed after at most `k` steps (R202). -/
def runOut : Nat → State → List Response
  | 0, s => s.out
  | k + 1, s =>
    match step s with
    | .next s' => runOut k s'
    | .fault _ => s.out
    | .refused _ => s.out

/-- Commands executed one after another, in the order they are issued (R46). -/
def execAll : List Instr → State → Answer
  | [], s => .next s
  | i :: is, s =>
    match exec i s with
    | .next s' => execAll is s'
    | .fault r => .fault r
    | .refused r => .refused r

/-- A block with some configuration, receiving `B`, sends `B'` on. -/
def forwardsTo (B B' : Bytes) : Prop :=
  ∃ s ckSkip nh,
    exec (.receive ckSkip B) s = .next (s.respond ⟨.forwarded, .none, some (.linkSend B' nh)⟩)

end Sys2Proof.Machine
end

