-- ==== Sys2Proof/Certificates/Slice0/Obligations.lean ====
section
/-! DEFINITION. The statements for the provers.  Rule numbers R<n> are those of spec/; "log <n>" is notes/assumptions/<n>.md. -/

open Sys2Proof Sys2Proof.Machine

/-! Encodings and the step. -/

/-- Decoding the listing of a command that has one gives the command back, whatever follows it (R83). -/
def Obligations.DecodeOfEncodeIsTheCommand : Prop :=
  ∀ (i : Instr) (rest : Bytes), i.wf = true → decode (encode i ++ rest) = .command i rest

/-- Bytes that decode to a command are its listing and nothing else: no two listings stand for one command
(R83). -/
def Obligations.DecodedBytesAreTheListing : Prop :=
  ∀ (bs : Bytes) (i : Instr) (rest : Bytes),
    decode bs = .command i rest → bs = encode i ++ rest ∧ i.wf = true

/-- Words written out from R70 and R83 decode to the commands they stand for. -/
def Obligations.ListedWordsDecode : Prop :=
  decode [0x02#8, 0x2E#8, 0x01#8, 0x00#8, 0x28#8, 0xBE#8, 0xEF#8, 0x02#8, 0x00#8, 0x00#8, 0x80#8, 0x11#8,
      0x00#8, 0x00#8, 0x01#8, 0x02#8, 0x03#8, 0x04#8, 0x05#8, 0x06#8, 0x07#8, 0x08#8]
    = .command (.encode ⟨46#6, 1#2, 40#16, 0xBEEF#16, 2#3, 0#13, 128#8, 17#8, 0#16,
        0x01020304#32, 0x05060708#32⟩) []
  ∧ decode [0x10#8, 0x00#8, 0x00#8, 0x00#8, 0x01#8, 0x0A#8, 0x00#8, 0x00#8, 0x00#8, 0x18#8, 0x0A#8, 0x00#8,
      0x00#8, 0x01#8]
    = .command (.setRoutes [⟨0x0A000000#32, 24#6, 0x0A000001#32⟩]) []
  ∧ decode [0x20#8, 0x0A#8, 0x00#8, 0x00#8, 0x02#8, 0x21#8]
    = .command (.setLocalAddr 0x0A000002#32) [0x21#8]
  ∧ decode [0x32#8, 0x01#8, 0x08#8, 0x08#8, 0x08#8, 0x08#8, 0x00#8, 0x00#8, 0x00#8, 0x02#8, 0x68#8, 0x69#8]
    = .command (.send true 0x08080808#32 [0x68#8, 0x69#8]) []

/-- When the input decodes to a command, a step is that command's operation, with the command taken from the
input.  With `DecodeOfEncodeIsTheCommand` this is so for every command that has a listing.  That a step takes
its command from a stream of listing bytes, held in the field `input`, is the model's choice (logs 1, 2); R46
says only that commands are executed one at a time, in the order they are issued. -/
def Obligations.StepRunsTheDecodedCommand : Prop :=
  ∀ (s : State) (i : Instr) (rest : Bytes),
    decode s.input = .command i rest → step s = exec i (s.withInput rest)

/-- Commands written one after another are executed one at a time, each to completion, in the order they are
issued (R46).  That they are issued as listing bytes in `input` is the model's choice (logs 1, 2). -/
def Obligations.StepsRunTheCommandsInOrder : Prop :=
  ∀ (is : List Instr) (rest : Bytes) (s : State), (∀ i ∈ is, i.wf = true) →
    Sys2Proof.core.run is.length (s.withInput (is.flatMap encode ++ rest))
      = execAll is (s.withInput rest)

/-- The 246 other opcodes: the status is `ILLEGAL_COMMAND`, no operand is read (so the next byte starts the next
command: logs 2, 20), nothing is written and no event is emitted (R74, R180). -/
def Obligations.IllegalOpcodeOnlyReturnsItsStatus : Prop :=
  (∀ (b : Byte) (bs : Bytes) (s : State),
    b ∉ [0x01#8, 0x02#8, 0x03#8, 0x10#8, 0x11#8, 0x20#8, 0x21#8, 0x30#8, 0x31#8, 0x32#8] →
      step (s.withInput (b :: bs)) =
        .next ((s.withInput bs).respond ⟨.illegalCommand, .none, none⟩)) ∧
  ((List.range 256).filter fun n => (Opcode.ofByte (BitVec.ofNat 8 n)).isNone).length = 246

/-- The listing of each command is its opcode byte and its operands in the layout of R83, every number most
significant byte first and every unused high bit zero. -/
def Obligations.ListingsHaveTheirLayouts : Prop :=
  (∀ (B : Bytes) (op : Byte) (i : Instr), i = .decode B ∧ op = 0x01#8 ∨ i = .classify B ∧ op = 0x30#8 →
    B.length < 2 ^ 32 → ∃ len : Addr, encode i = op :: be32 len ++ B ∧ wireAddr (encode i) 1 = B.length) ∧
  (∀ (f : HeaderFields), let L := encode (.encode f)
    L.length = 22 ∧ wireByte L 0 = 0x02 ∧ wireByte L 1 = f.dscp.toNat ∧ wireByte L 2 = f.ecn.toNat ∧
    wireHalf L 3 = f.tlen.toNat ∧ wireHalf L 5 = f.ident.toNat ∧ wireByte L 7 = f.flags.toNat ∧
    wireHalf L 8 = f.frag.toNat ∧ wireByte L 10 = f.ttl.toNat ∧ wireByte L 11 = f.proto.toNat ∧
    wireHalf L 12 = f.ck.toNat ∧ wireAddr L 14 = f.src.toNat ∧ wireAddr L 18 = f.dst.toNat) ∧
  (∀ H : Header, encode (.checksum H) = 0x03#8 :: H.toList) ∧
  (∀ E : List RouteEntry, E.length < 2 ^ 32 → let L := encode (.setRoutes E)
    L.length = 5 + 9 * E.length ∧ wireByte L 0 = 0x10 ∧ wireAddr L 1 = E.length ∧
    ∀ (k : Nat) (h : k < E.length), wireAddr L (5 + 9 * k) = E[k].net.toNat ∧
      wireByte L (9 + 9 * k) = E[k].plen.toNat ∧ wireAddr L (10 + 9 * k) = E[k].nh.toNat) ∧
  (∀ (a : Addr) (op : Byte) (i : Instr), i = .lookup a ∧ op = 0x11#8 ∨ i = .setLocalAddr a ∧ op = 0x20#8 →
    (encode i).length = 5 ∧ (encode i).head? = some op ∧ wireAddr (encode i) 1 = a.toNat) ∧
  encode .registerUl = [0x21#8] ∧
  (∀ (skip : Bool) (B : Bytes), B.length < 2 ^ 32 → ∃ len : Addr,
    encode (.receive skip B) = 0x31#8 :: (if skip then 0x01#8 else 0x00#8) :: be32 len ++ B ∧
    wireAddr (encode (.receive skip B)) 2 = B.length) ∧
  (∀ (skip : Bool) (dst : Addr) (P : Bytes), P.length < 2 ^ 32 → ∃ d len : Addr,
    encode (.send skip dst P) = 0x32#8 :: (if skip then 0x01#8 else 0x00#8) :: be32 d ++ be32 len ++ P ∧
    wireAddr (encode (.send skip dst P)) 2 = dst.toNat ∧ wireAddr (encode (.send skip dst P)) 6 = P.length)

/-- A listing whose padding bits are not zero, or whose `ck_skip` byte is not `00` or `01`, is not a command:
the step refuses it by name (R83; that the refusal stands inside the step is the model's choice, log 2).
The clauses are the two `ck_skip` layouts, the four padded operands of
`ENCODE`, and the prefix length of any entry of `SET_ROUTES`. -/
def Obligations.MalformedListingIsNotACommand : Prop :=
  (∀ (b : Byte) (bs : Bytes) (s : State), 2 ≤ b.toNat → ∀ op ∈ [0x31#8, 0x32#8],
    step (s.withInput (op :: b :: bs)) = .refused (.notACommand .ckSkip)) ∧
  (∀ (d e t1 t0 i1 i0 fl g1 g0 : Byte) (bs : Bytes) (s : State),
    64 ≤ d.toNat ∨ 4 ≤ e.toNat ∨ 8 ≤ fl.toNat ∨ 32 ≤ g1.toNat →
    step (s.withInput (0x02#8 :: d :: e :: t1 :: t0 :: i1 :: i0 :: fl :: g1 :: g0 :: bs))
      = .refused (.notACommand .padding)) ∧
  (∀ (n net : Addr) (E : List RouteEntry) (b : Byte) (bs : Bytes) (s : State),
    E.length < n.toNat → 64 ≤ b.toNat →
    step (s.withInput (0x10#8 :: be32 n ++ E.flatMap writeEntry ++ be32 net ++ b :: bs))
      = .refused (.notACommand .padding))

/-- A step stops only where the next input bytes are no command: every command, legal or not, completes.
The refusal of bytes that are no command is the model's (log 2). -/
def Obligations.StepStopsOnlyOnNonCommands : Prop :=
  ∀ (s : State), (∃ s', step s = .next s') ∨
    (∃ why, decode s.input = .refused why ∧ step s = .refused (.notACommand why))

/-- Between commands the block holds `CFG` and does nothing (R189; log 6). -/
def Obligations.IdleStepChangesNothing : Prop :=
  ∀ (s : State), s.input = [] → step s = .next s

/-! Reset and invariants. -/

/-- Every parameter choice within R12 gives a reset state that meets the invariant, the default one too. -/
def Obligations.ResetMeetsTheTableInvariant : Prop :=
  (∀ c : Config, c.wf → (State.resetWith c).Inv) ∧ State.reset.Inv

/-- The reset values of R34, for every choice of the parameters: no local address, an empty table, no upper
layer registered; and what `LOCAL_ADDR` holds is not observable, in any run of any commands.  (That the model
holds zero there is its own choice, log 3; the statement holds for every value.) -/
def Obligations.ResetLeavesTheBlockUnconfigured : Prop :=
  ∀ c : Config,
    (State.resetWith c).cfg.localValid = false ∧ (State.resetWith c).cfg.routeCount = 0 ∧
    (State.resetWith c).cfg.ulReg = false ∧
    ∀ (a : Addr) (bs : Bytes) (k : Nat),
      runOut k (((State.resetWith c).withCfg { Cfg.reset with localAddr := a }).withInput bs)
        = runOut k ((State.resetWith c).withInput bs)

/-- R28: the invariant is established by reset and kept by every step, and entries may repeat. -/
def Obligations.EveryStepKeepsTheTableInvariant : Prop :=
  (∀ c : Config, c.wf → (State.resetWith c).Inv) ∧
  (∀ s s' : State, s.Inv → step s = .next s' → s'.Inv) ∧
  (∀ (s : State) (e : RouteEntry) (n : Nat), n ≤ s.config.routeCapacity → RouteLegal e →
    exec (.setRoutes (List.replicate n e)) s =
      .next ((s.withCfg { s.cfg with routes := List.replicate n e }).respond ⟨.ok, .none, none⟩))

/-- The parameters are fixed for the block's life (R192); that State holds them is the model's choice
(log 4). -/
def Obligations.NoStepChangesTheParameters : Prop :=
  ∀ s s' : State, step s = .next s' → s'.config = s.config

/-- Every datagram handed to the link layer is whole, and every event fits its status: a step keeps this of
the outputs. -/
def Obligations.EveryStepKeepsOutputsWellFormed : Prop :=
  ∀ s s' : State, s.OutputsOk → step s = .next s' → s'.OutputsOk

/-- Behaviour from the reset state, before any configuration (R195). -/
def Obligations.UnconfiguredBlockOnlyDrops : Prop :=
  ∀ (c : Config) (ckSkip : Bool) (B P : Bytes) (a : Addr),
    let s := State.resetWith c
    (DecodeOk B → wireByte B 8 ≤ 1 →
      exec (.receive ckSkip B) s = .next (s.respond ⟨.ttlExpired, .none, none⟩)) ∧
    (DecodeOk B → 2 ≤ wireByte B 8 →
      exec (.receive ckSkip B) s = .next (s.respond ⟨.noRoute, .none, none⟩)) ∧
    exec (.send ckSkip a P) s = .next (s.respond ⟨.noRoute, .none, none⟩) ∧
    exec (.lookup a) s = .next (s.respond ⟨.noRoute, .none, none⟩) ∧
    (DecodeOk B → exec (.classify B) s = .next (s.respond ⟨.ok, .dispatch .forward, none⟩))

/-! The header codec. -/

/-- `DECODE` of a well-formed datagram returns the ten fields, read at their places in the header, and the
bytes after the header as payload, whatever total length and checksum say (R91 to R93). -/
def Obligations.DecodeReturnsTheHeaderFields : Prop :=
  ∀ (B : Bytes) (s : State),
    20 ≤ B.length → B.length ≤ 65535 → wireByte B 0 = 0x45 →
    ∃ d : DecodedFields,
      exec (.decode B) s = .next (s.respond ⟨.ok, .fields d, none⟩) ∧
      d.dscp.toNat = wireByte B 1 / 4 ∧ d.ecn.toNat = wireByte B 1 % 4 ∧
      d.ident.toNat = wireHalf B 4 ∧
      d.flags.toNat = wireHalf B 6 / 8192 ∧ d.frag.toNat = wireHalf B 6 % 8192 ∧
      d.ttl.toNat = wireByte B 8 ∧ d.proto.toNat = wireByte B 9 ∧
      d.src.toNat = wireAddr B 12 ∧ d.dst.toNat = wireAddr B 16 ∧
      d.payload = B.drop 20

/-- A datagram that is short, too long, or does not begin with `45` gets `DECODE_ERROR` from `DECODE`,
`CLASSIFY` and `RECEIVE`, with no effect; and nothing else gets it (R144, R172). -/
def Obligations.DecodeErrorExactlyOnMalformedDatagrams : Prop :=
  ∀ (B : Bytes) (s : State),
    let bad := B.length < 20 ∨ 65535 < B.length ∨ B.head? ≠ some 0x45#8
    (∀ i ∈ [Instr.decode B, .classify B, .receive true B, .receive false B],
      (bad → exec i s = .next (s.respond ⟨.decodeError, .none, none⟩)) ∧
      (¬ bad → ∀ t res ev, exec i s ≠ .next (State.respond t ⟨.decodeError, res, ev⟩))) ∧
    (∀ i : Instr, (∀ B, i ≠ .decode B ∧ i ≠ .classify B ∧ ∀ skip, i ≠ .receive skip B) →
      ∀ t res ev, exec i s ≠ .next (State.respond t ⟨.decodeError, res, ev⟩))

/-- `ENCODE` returns the 20 bytes of R96: every field at its place, `tlen` and `ck` as given. -/
def Obligations.EncodeWritesEveryField : Prop :=
  ∀ (f : HeaderFields) (s : State), (encode (.encode f)).head? = some 0x02#8 ∧ ∃ H : Header,
    exec (.encode f) s = .next (s.respond ⟨.ok, .header H, none⟩) ∧
    wireByte H.toList 0 = 0x45 ∧ wireByte H.toList 1 = 4 * f.dscp.toNat + f.ecn.toNat ∧
    wireHalf H.toList 2 = f.tlen.toNat ∧ wireHalf H.toList 4 = f.ident.toNat ∧
    wireHalf H.toList 6 = 8192 * f.flags.toNat + f.frag.toNat ∧
    wireByte H.toList 8 = f.ttl.toNat ∧ wireByte H.toList 9 = f.proto.toNat ∧
    wireHalf H.toList 10 = f.ck.toNat ∧
    wireAddr H.toList 12 = f.src.toNat ∧ wireAddr H.toList 16 = f.dst.toNat

/-- R104: decoding an encoded header followed by a payload gives the nine common fields and the payload. -/
def Obligations.DecodeOfEncodeReturnsTheFields : Prop :=
  ∀ (f : HeaderFields) (P : Bytes) (s t : State), P.length ≤ 65535 - 20 →
    ∃ H : Header, exec (.encode f) t = .next (t.respond ⟨.ok, .header H, none⟩) ∧
      exec (.decode (H.toList ++ P)) s =
        .next (s.respond ⟨.ok, .fields ⟨f.dscp, f.ecn, f.ident, f.flags, f.frag, f.ttl, f.proto, f.src,
          f.dst, P⟩, none⟩)

/-- `CHECKSUM` returns the complement of the folded sum of the ten words as they stand, and folding once at
the end is adding each carry back at once (R99 to R101). -/
def Obligations.ChecksumIsTheComplementOfTheFoldedSum : Prop :=
  ∀ (H : Header) (s : State), (encode (.checksum H)).head? = some 0x03#8 ∧ ∃ c : Half,
    exec (.checksum H) s = .next (s.respond ⟨.ok, .checksum c, none⟩) ∧
    c.toNat = 65535 - foldedSum (wireSum H.toList) ∧
    c = ~~~ (headerWords H).foldl onesAdd 0#16

/-- R102: a header verifies (`CHECKSUM` gives zero, the pseudo-command `VERIFY` of R82) exactly when its
words sum to `FFFF`, and filling in the checksum of a header whose checksum field is zero makes it verify. -/
def Obligations.FilledInChecksumVerifies : Prop :=
  ∀ (H : Header) (s : State),
    (exec (.checksum H) s = .next (s.respond ⟨.ok, .checksum 0#16, none⟩) ↔
      foldedSum (wireSum H.toList) = 0xFFFF) ∧
    (H[10] = 0#8 → H[11] = 0#8 → ∃ c : Half,
      exec (.checksum H) s = .next (s.respond ⟨.ok, .checksum c, none⟩) ∧
      exec (.checksum ((H.set 10 (byteAt c 1)).set 11 (byteAt c 0))) s =
        .next (s.respond ⟨.ok, .checksum 0#16, none⟩))

/-- R90: the codec's commands read only their operands, write nothing and emit nothing. -/
def Obligations.CodecCommandsArePure : Prop :=
  ∀ i : Instr, (∃ B, i = .decode B) ∨ (∃ f, i = .encode f) ∨ (∃ H, i = .checksum H) →
    ∃ (st : Status) (res : Result), ∀ s : State, exec i s = .next (s.respond ⟨st, res, none⟩)

/-! The forwarding table. -/

/-- R111: bit `i` of `Mask(p)` is 1 exactly for the `p` most significant bits. -/
def Obligations.MaskHasThePrefixBits : Prop :=
  ∀ p i : Nat, p ≤ 32 → i < 32 → ((mask p).getLsbD i = true ↔ 32 - p ≤ i)

/-- R112: a legal entry contains an address exactly when the prefix bits agree; `/0` contains every address
and `/32` only its own. -/
def Obligations.ContainsComparesThePrefixBits : Prop :=
  ∀ (e : RouteEntry) (a : Addr), RouteLegal e →
    (contains e a = true ↔ inPrefix e a) ∧
    (e.plen = 0#6 → contains e a = true) ∧
    (e.plen = 32#6 → (contains e a = true ↔ a = e.net))

/-- `SET_ROUTES` refuses the whole list, for its size first and then for the first bad prefix length, or
replaces the whole table with the list as given (R113, R114). -/
def Obligations.SetRoutesReplacesOrRefusesTheWholeList : Prop :=
  ∀ (E : List RouteEntry) (s : State),
    (encode (.setRoutes E)).head? = some 0x10#8 ∧
    (s.config.routeCapacity < E.length →
      exec (.setRoutes E) s =
        .next (s.respond ⟨.configError, .configInfo s.config.routeCapacity .capacity, none⟩)) ∧
    (∀ (i : Nat) (h : i < E.length), E.length ≤ s.config.routeCapacity →
      32 < E[i].plen.toNat → (∀ (j : Nat) (h' : j < i), E[j].plen.toNat ≤ 32) →
      exec (.setRoutes E) s =
        .next (s.respond ⟨.configError, .configInfo i .prefixRange, none⟩)) ∧
    (E.length ≤ s.config.routeCapacity → (∀ e ∈ E, e.plen.toNat ≤ 32) →
      exec (.setRoutes E) s =
        .next ((s.withCfg { s.cfg with routes := E }).respond ⟨.ok, .none, none⟩)) ∧
    ConfigReason.code .prefixRange = 1 ∧ ConfigReason.code .capacity = 2

/-- `LOOKUP` in a legal table: the next hop of the first entry of greatest prefix length that contains the
address, whatever that next hop is, and `NO_ROUTE` when no entry contains it (R116 to R119). -/
def Obligations.LookupFindsTheFirstLongestPrefix : Prop :=
  ∀ (a : Addr) (s : State), (∀ e ∈ s.cfg.routes, RouteLegal e) →
    (encode (.lookup a)).head? = some 0x11#8 ∧
    ((∃ e ∈ s.cfg.routes, inPrefix e a) → ∃ i e, bestAt s.cfg.routes a i ∧ s.cfg.routes[i]? = some e) ∧
    (∀ i e, bestAt s.cfg.routes a i → s.cfg.routes[i]? = some e →
      exec (.lookup a) s = .next (s.respond ⟨.ok, .nextHop e.nh, none⟩)) ∧
    ((∀ e ∈ s.cfg.routes, ¬ inPrefix e a) →
      exec (.lookup a) s = .next (s.respond ⟨.noRoute, .none, none⟩))

/-! Engine configuration and classification. -/

/-- R131: the local address is assigned, and nothing else changes. -/
def Obligations.SetLocalAddrAssignsTheAddress : Prop :=
  ∀ (a : Addr) (s : State), (encode (.setLocalAddr a)).head? = some 0x20#8 ∧
    exec (.setLocalAddr a) s =
      .next ((s.withCfg ⟨true, a, s.cfg.routes, s.cfg.ulReg⟩).respond ⟨.ok, .none, none⟩)

/-- R132: the upper layer is registered, and nothing else changes. -/
def Obligations.RegisterUlRegisters : Prop :=
  ∀ s : State, (encode .registerUl).head? = some 0x21#8 ∧
    exec .registerUl s =
      .next ((s.withCfg ⟨s.cfg.localValid, s.cfg.localAddr, s.cfg.routes, true⟩).respond ⟨.ok, .none, none⟩)

/-- `CLASSIFY` of a well-formed datagram: `DELIVER` (0) exactly when a local address is assigned and equals
the destination address, and `FORWARD` (1) otherwise; no address is special (R133, R134, R140, R142). -/
def Obligations.ClassifyComparesTheDestination : Prop :=
  ∀ (B : Bytes) (s : State), DecodeOk B →
    (s.cfg.localValid = true ∧ wireAddr B 16 = s.cfg.localAddr.toNat →
      exec (.classify B) s = .next (s.respond ⟨.ok, .dispatch .deliver, none⟩)) ∧
    (¬ (s.cfg.localValid = true ∧ wireAddr B 16 = s.cfg.localAddr.toNat) →
      exec (.classify B) s = .next (s.respond ⟨.ok, .dispatch .forward, none⟩)) ∧
    Class.code .deliver = 0 ∧ Class.code .forward = 1

/-! Receive. -/

/-- Host mode, delivery: exactly one `UlDeliver` with the datagram's addresses and its payload unmodified
(R145). -/
def Obligations.ReceiveDeliversToTheUpperLayer : Prop :=
  ∀ (ckSkip : Bool) (B : Bytes) (s : State), DecodeOk B →
    s.cfg.localValid = true → wireAddr B 16 = s.cfg.localAddr.toNat →
    wireByte B 9 = s.config.supportedProto.toNat → s.cfg.ulReg = true →
    ∃ src dst : Addr, src.toNat = wireAddr B 12 ∧ dst.toNat = wireAddr B 16 ∧
      exec (.receive ckSkip B) s =
        .next (s.respond ⟨.delivered, .none, some (.ulDeliver src dst (B.drop 20))⟩)

/-- Host mode, drops: another protocol first, then no upper layer registered (R146, R147). -/
def Obligations.ReceiveDropsWithoutAConsumer : Prop :=
  ∀ (ckSkip : Bool) (B : Bytes) (s : State), DecodeOk B →
    s.cfg.localValid = true → wireAddr B 16 = s.cfg.localAddr.toNat →
    (wireByte B 9 ≠ s.config.supportedProto.toNat →
      exec (.receive ckSkip B) s = .next (s.respond ⟨.unsupportedProtocol, .none, none⟩)) ∧
    (wireByte B 9 = s.config.supportedProto.toNat → s.cfg.ulReg = false →
      exec (.receive ckSkip B) s = .next (s.respond ⟨.noConsumer, .none, none⟩))

/-- R148: in host mode neither the TTL, nor the checksum, nor the total length, nor `ck_skip` matters. -/
def Obligations.HostModeIgnoresTtlAndChecksum : Prop :=
  ∀ (skip skip' : Bool) (B B' : Bytes) (s : State), DecodeOk B →
    s.cfg.localValid = true → wireAddr B 16 = s.cfg.localAddr.toNat →
    agreeExcept [2, 3, 8, 10, 11] B B' →
    exec (.receive skip B) s = exec (.receive skip' B') s

/-- Router mode, TTL expiry: a received TTL of 0 or 1 is a silent drop, with a route or without (R152). -/
def Obligations.ReceiveDropsExpiredTtl : Prop :=
  ∀ (ckSkip : Bool) (B : Bytes) (s : State), DecodeOk B →
    ¬ (s.cfg.localValid = true ∧ wireAddr B 16 = s.cfg.localAddr.toNat) → wireByte B 8 ≤ 1 →
    exec (.receive ckSkip B) s = .next (s.respond ⟨.ttlExpired, .none, none⟩)

/-- Router mode, no route: a silent drop, with no send to any default (R153). -/
def Obligations.ReceiveDropsWithoutARoute : Prop :=
  ∀ (ckSkip : Bool) (B : Bytes) (s : State), DecodeOk B →
    ¬ (s.cfg.localValid = true ∧ wireAddr B 16 = s.cfg.localAddr.toNat) → 2 ≤ wireByte B 8 →
    (∀ e ∈ s.cfg.routes, RouteLegal e) →
    (∀ (e : RouteEntry) (dst : Addr), e ∈ s.cfg.routes → dst.toNat = wireAddr B 16 → ¬ inPrefix e dst) →
    exec (.receive ckSkip B) s = .next (s.respond ⟨.noRoute, .none, none⟩)

/-- Router mode, forwarding: exactly one `LinkSend` to the longest-prefix next hop of a datagram that is the
received one byte for byte but for the TTL, which is one less, the total length, which is its size, and the
checksum, which is that of the new header, or zero when enforcement is skipped (R154 to R156). -/
def Obligations.ForwardChangesOnlyTtlLengthAndChecksum : Prop :=
  ∀ (ckSkip : Bool) (B : Bytes) (s : State) (i : Nat) (e : RouteEntry) (dst : Addr), DecodeOk B →
    ¬ (s.cfg.localValid = true ∧ wireAddr B 16 = s.cfg.localAddr.toNat) → 2 ≤ wireByte B 8 →
    (∀ e ∈ s.cfg.routes, RouteLegal e) → dst.toNat = wireAddr B 16 →
    bestAt s.cfg.routes dst i → s.cfg.routes[i]? = some e →
    ∃ out : Bytes,
      exec (.receive ckSkip B) s = .next (s.respond ⟨.forwarded, .none, some (.linkSend out e.nh)⟩) ∧
      agreeExcept [2, 3, 8, 10, 11] B out ∧
      wireByte out 8 + 1 = wireByte B 8 ∧
      wireHalf out 2 = B.length ∧
      (ckSkip = true → wireHalf out 10 = 0) ∧
      (ckSkip = false → wireHalf out 10 = 65535 - foldedSum (wireSum out - wireHalf out 10))

/-- R157: in router mode neither the registration nor the protocol field matters to what becomes of a
datagram.  Datagrams that differ in the protocol byte alone, received under any two registrations, end alike;
when forwarded, what is sent differs in nothing but that byte and the checksum over it, and for one and the
same datagram in nothing at all. -/
def Obligations.RouterModeIgnoresProtocolAndRegistration : Prop :=
  ∀ (skip : Bool) (B B' : Bytes) (s : State) (u : Bool), DecodeOk B →
    ¬ (s.cfg.localValid = true ∧ wireAddr B 16 = s.cfg.localAddr.toNat) →
    agreeExcept [9] B B' →
    ∃ st ev ev',
      exec (.receive skip B) s = .next (s.respond ⟨st, .none, ev⟩) ∧
      exec (.receive skip B') (s.withCfg { s.cfg with ulReg := u }) =
        .next ((s.withCfg { s.cfg with ulReg := u }).respond ⟨st, .none, ev'⟩) ∧
      (st = .ttlExpired ∧ ev = none ∧ ev' = none ∨ st = .noRoute ∧ ev = none ∧ ev' = none ∨
        ∃ out out' nh, st = .forwarded ∧ ev = some (.linkSend out nh) ∧ ev' = some (.linkSend out' nh) ∧
          wireByte out 9 = wireByte B 9 ∧ wireByte out' 9 = wireByte B' 9 ∧
          agreeExcept [9, 10, 11] out out' ∧ (B = B' → out = out'))

/-- The checksum and the total length of an inbound datagram are read by nothing (R94, R158). -/
def Obligations.InboundChecksumAndLengthAreNeverRead : Prop :=
  ∀ (skip : Bool) (B B' : Bytes) (s : State), agreeExcept [2, 3, 10, 11] B B' →
    exec (.receive skip B) s = exec (.receive skip B') s ∧
    exec (.decode B) s = exec (.decode B') s ∧
    exec (.classify B) s = exec (.classify B') s

/-- Fragments are handled as whole datagrams (R95): `DECODE` returns flags and offset as they stand and every
other field alike, delivery is the same, and router mode sends to the same next hop a datagram that differs
from the other only in flags, offset and checksum. -/
def Obligations.FragmentsAreWholeDatagrams : Prop :=
  ∀ (skip : Bool) (B B' : Bytes) (s : State), DecodeOk B → agreeExcept [6, 7] B B' →
    (∃ (d : DecodedFields) (flags : BitVec 3) (frag : BitVec 13),
      flags.toNat = wireHalf B' 6 / 8192 ∧ frag.toNat = wireHalf B' 6 % 8192 ∧
      exec (.decode B) s = .next (s.respond ⟨.ok, .fields d, none⟩) ∧
      exec (.decode B') s =
        .next (s.respond ⟨.ok, .fields { d with flags := flags, frag := frag }, none⟩)) ∧
    (exec (.receive skip B) s = exec (.receive skip B') s ∨
      ∃ out out' nh,
        exec (.receive skip B) s = .next (s.respond ⟨.forwarded, .none, some (.linkSend out nh)⟩) ∧
        exec (.receive skip B') s = .next (s.respond ⟨.forwarded, .none, some (.linkSend out' nh)⟩) ∧
        agreeExcept [6, 7, 10, 11] out out' ∧ wireHalf out' 6 = wireHalf B' 6)

/-- A datagram passed on from block to block, whatever each block's configuration, is sent at most 254 times:
the TTL alone ends every routing loop (R151, R187). -/
def Obligations.ForwardingChainsEnd : Prop :=
  ∀ hops : List Bytes, hops.IsChain forwardsTo → hops.length ≤ 255

/-! Send. -/

/-- `SEND`: one `LinkSend` to the longest-prefix next hop, of the header of R162 and the payload unmodified;
the checksum is that of the header, or zero when enforcement is skipped (R162, R163, R165). -/
def Obligations.SendOriginatesADatagram : Prop :=
  ∀ (ckSkip : Bool) (dst : Addr) (P : Bytes) (s : State) (i : Nat) (e : RouteEntry),
    (∀ e ∈ s.cfg.routes, RouteLegal e) → bestAt s.cfg.routes dst i → s.cfg.routes[i]? = some e →
    s.cfg.localValid = true → P.length ≤ 65515 →
    ∃ H : Header,
      exec (.send ckSkip dst P) s =
        .next (s.respond ⟨.ok, .none, some (.linkSend (H.toList ++ P) e.nh)⟩) ∧
      wireByte H.toList 0 = 0x45 ∧ wireByte H.toList 1 = 0 ∧ wireHalf H.toList 2 = 20 + P.length ∧
      wireHalf H.toList 4 = 0 ∧ wireHalf H.toList 6 = 0 ∧ wireByte H.toList 8 = 64 ∧
      wireByte H.toList 9 = s.config.supportedProto.toNat ∧
      wireAddr H.toList 12 = s.cfg.localAddr.toNat ∧ wireAddr H.toList 16 = dst.toNat ∧
      (ckSkip = true → wireHalf H.toList 10 = 0) ∧
      (ckSkip = false → foldedSum (wireSum H.toList) = 0xFFFF ∧
        wireHalf H.toList 10 = 65535 - foldedSum (wireSum H.toList - wireHalf H.toList 10))

/-- The failures of `SEND`, in their order (R160, R161, R164, R166). -/
def Obligations.SendFailsInOrder : Prop :=
  ∀ (ckSkip : Bool) (dst : Addr) (P : Bytes) (s : State), (∀ e ∈ s.cfg.routes, RouteLegal e) →
    ((∀ e ∈ s.cfg.routes, ¬ inPrefix e dst) →
      exec (.send ckSkip dst P) s = .next (s.respond ⟨.noRoute, .none, none⟩)) ∧
    ((∃ e ∈ s.cfg.routes, inPrefix e dst) → s.cfg.localValid = false →
      exec (.send ckSkip dst P) s = .next (s.respond ⟨.noLocalAddress, .none, none⟩)) ∧
    ((∃ e ∈ s.cfg.routes, inPrefix e dst) → s.cfg.localValid = true → 65515 < P.length →
      exec (.send ckSkip dst P) s = .next (s.respond ⟨.payloadTooLarge, .none, none⟩))

/-- R167: `SEND` has no loopback.  A destination equal to the local address is looked up and sent like any
other, and no `SEND` at all emits `UlDeliver`. -/
def Obligations.SendNeverLoopsBack : Prop :=
  (∀ (ckSkip : Bool) (P : Bytes) (s : State) (i : Nat) (e : RouteEntry),
    (∀ e ∈ s.cfg.routes, RouteLegal e) → bestAt s.cfg.routes s.cfg.localAddr i →
    s.cfg.routes[i]? = some e → s.cfg.localValid = true → P.length ≤ 65515 →
    ∃ bytes, exec (.send ckSkip s.cfg.localAddr P) s =
      .next (s.respond ⟨.ok, .none, some (.linkSend bytes e.nh)⟩)) ∧
  (∀ (ckSkip : Bool) (dst : Addr) (P : Bytes) (s : State),
    ∃ (st : Status) (ev : Option Event), exec (.send ckSkip dst P) s = .next (s.respond ⟨st, .none, ev⟩) ∧
      ∀ src dst' Q, ev ≠ some (.ulDeliver src dst' Q))

/-- R105: every header emitted with checksum enforcement enabled sums to `FFFF`. -/
def Obligations.EmittedHeadersSumToAllOnes : Prop :=
  ∀ (i : Instr) (s t : State) (st : Status) (res : Result) (out : Bytes) (nh : Addr),
    (∃ B, i = .receive false B) ∨ (∃ dst P, i = .send false dst P) →
    exec i s = .next (t.respond ⟨st, res, some (.linkSend out nh)⟩) →
    20 ≤ out.length ∧ foldedSum (wireSum out) = 0xFFFF

/-! All commands: frames, errors, events. -/

/-- Every command completes with exactly one response, and only the three configuration commands may write
`CFG`; the parameters, the input and the earlier observation stay (R31, R33). -/
def Obligations.OnlyConfigurationCommandsWriteCfg : Prop :=
  ∀ (i : Instr) (s : State), ∃ (c : Cfg) (r : Response),
    exec i s = .next ((s.withCfg c).respond r) ∧
    ((∀ E, i ≠ .setRoutes E) → c.routes = s.cfg.routes) ∧
    ((∀ a, i ≠ .setLocalAddr a) → c.localValid = s.cfg.localValid ∧ c.localAddr = s.cfg.localAddr) ∧
    (i ≠ .registerUl → c.ulReg = s.cfg.ulReg)

/-- The table of R33, read side: two blocks of the same parameters whose configurations agree on the fields a
command reads give the same response to it, and the same values to the fields it writes. -/
def Obligations.CommandsReadOnlyTheirOwnFields : Prop :=
  ∀ (i : Instr) (s t : State), s.config = t.config → readsAgree i s.cfg t.cfg →
    ∃ (c d : Cfg) (r : Response),
      exec i s = .next ((s.withCfg c).respond r) ∧ exec i t = .next ((t.withCfg d).respond r) ∧
      (c.routes = s.cfg.routes ∧ d.routes = t.cfg.routes ∨ c.routes = d.routes) ∧
      (c.localValid = s.cfg.localValid ∧ c.localAddr = s.cfg.localAddr ∧
        d.localValid = t.cfg.localValid ∧ d.localAddr = t.cfg.localAddr ∨
        c.localValid = d.localValid ∧ c.localAddr = d.localAddr) ∧
      (c.ulReg = s.cfg.ulReg ∧ d.ulReg = t.cfg.ulReg ∨ c.ulReg = d.ulReg)

/-- R80: the result values of each command, with the statuses it may return and the events it may emit. -/
def Obligations.CommandsReturnTheirOwnResults : Prop :=
  ∀ (i : Instr) (s s' : State) (r : Response),
    exec i s = .next s' → s'.out = s.out ++ [r] → r.fits i

/-- R183: an operation that raises leaves everything as it found it and emits nothing. -/
def Obligations.ErrorsWriteAndEmitNothing : Prop :=
  ∀ (i : Instr) (s s' : State) (r : Response),
    exec i s = .next s' → s'.out = s.out ++ [r] → r.status.success = false →
    s' = s.respond r ∧ r.event = none

/-- Who emits what: `LinkSend` comes only from `RECEIVE` of a datagram that is not local, with `FORWARDED`,
and from `SEND`, with `OK`; `UlDeliver` only from `RECEIVE` of a local one, with `DELIVERED` (R75, R76). -/
def Obligations.EventsComeOnlyFromTheDatagramPath : Prop :=
  ∀ (i : Instr) (s s' : State) (r : Response), exec i s = .next s' → s'.out = s.out ++ [r] →
    (∀ out nh, r.event = some (.linkSend out nh) →
      (r.status = .forwarded ∧ ∃ skip B, i = .receive skip B ∧
        ¬ (s.cfg.localValid = true ∧ wireAddr B 16 = s.cfg.localAddr.toNat)) ∨
      (r.status = .ok ∧ ∃ skip dst P, i = .send skip dst P)) ∧
    (∀ src dst P, r.event = some (.ulDeliver src dst P) →
      r.status = .delivered ∧ ∃ skip B, i = .receive skip B ∧
        s.cfg.localValid = true ∧ wireAddr B 16 = s.cfg.localAddr.toNat)

/-- R49: the pure commands change nothing and give the same result again; the configuration commands leave
the same `CFG` when repeated; each successful `RECEIVE` and `SEND` emits one more event. -/
def Obligations.RepeatingACommand : Prop :=
  ∀ (i : Instr) (s s1 s2 : State), exec i s = .next s1 → exec i s1 = .next s2 →
    ((∃ B, i = .decode B) ∨ (∃ f, i = .encode f) ∨ (∃ H, i = .checksum H) ∨ (∃ a, i = .lookup a) ∨
        (∃ B, i = .classify B) →
      ∃ r, s1 = s.respond r ∧ s2 = s1.respond r ∧ r.event = none) ∧
    ((∃ a, i = .setLocalAddr a) ∨ (∃ E, i = .setRoutes E) ∨ i = .registerUl →
      s2.cfg = s1.cfg ∧ s2.events = s.events) ∧
    ((∃ skip B, i = .receive skip B) ∨ (∃ skip dst P, i = .send skip dst P) →
      ∃ r, s1 = s.respond r ∧ s2 = s1.respond r ∧
        (r.status.success = true → s1.events.length = s.events.length + 1 ∧
          s2.events.length = s.events.length + 2))

/-- A configuration write is visible to the very next operation (R48, R196). -/
def Obligations.ConfigurationIsSeenByTheNextCommand : Prop :=
  ∀ (s s' : State),
    (∀ (E : List RouteEntry) (a : Addr) (i : Nat) (e : RouteEntry),
      E.length ≤ s.config.routeCapacity → (∀ e ∈ E, RouteLegal e) → bestAt E a i → E[i]? = some e →
      exec (.setRoutes E) s = .next s' →
      exec (.lookup a) s' = .next (s'.respond ⟨.ok, .nextHop e.nh, none⟩)) ∧
    (∀ (a : Addr) (B : Bytes), DecodeOk B → wireAddr B 16 = a.toNat →
      exec (.setLocalAddr a) s = .next s' →
      exec (.classify B) s' = .next (s'.respond ⟨.ok, .dispatch .deliver, none⟩)) ∧
    (∀ (skip : Bool) (B : Bytes), DecodeOk B → s.cfg.localValid = true →
      wireAddr B 16 = s.cfg.localAddr.toNat → wireByte B 9 = s.config.supportedProto.toNat →
      exec .registerUl s = .next s' →
      ∃ ev, exec (.receive skip B) s' = .next (s'.respond ⟨.delivered, .none, some ev⟩))

/-! Noninterference over steps. -/

/-- While no local address is assigned, no step can tell two values of `LOCAL_ADDR` apart: the next states
differ in nothing else, and they agree in everything once an address is assigned (R25). -/
def Obligations.UnassignedLocalAddrIsUnobservable : Prop :=
  ∀ (s : State) (a : Addr), s.cfg.localValid = false →
    let t := s.withCfg { s.cfg with localAddr := a }
    (∃ s' b, step s = .next s' ∧ step t = .next (s'.withCfg { s'.cfg with localAddr := b }) ∧
      (s'.cfg.localValid = true → b = s'.cfg.localAddr)) ∨
    (∃ r, step s = .refused r ∧ step t = .refused r)

/-- Nothing reads the observation: a step does the same whatever has been observed before (R35; log 1). -/
def Obligations.ObservationIsNeverRead : Prop :=
  ∀ (s : State) (o : List Response),
    (∃ s' new, step s = .next s' ∧ s'.out = s.out ++ new ∧ new.length ≤ 1 ∧
      step { s with out := o } = .next { s' with out := o ++ new }) ∨
    (∃ r, step s = .refused r ∧ step { s with out := o } = .refused r)

/-! Codes. -/

/-- The status codes of R79; no two statuses share one. -/
def Obligations.StatusCodesAreThoseOfTheTable : Prop :=
  ([.ok, .delivered, .forwarded, .decodeError, .noRoute, .ttlExpired, .unsupportedProtocol, .noConsumer,
      .noLocalAddress, .payloadTooLarge, .configError, .illegalCommand] : List Status).map Status.code
    = [0x00#8, 0x01#8, 0x02#8, 0x10#8, 0x11#8, 0x12#8, 0x13#8, 0x14#8, 0x20#8, 0x21#8, 0x30#8, 0xFF#8] ∧
  ∀ a b : Status, a.code = b.code → a = b
end

