-- ==== Sys2Proof/Laws/Wire.lean ====
section
/-! SUPPORT. Byte order: joining bytes and taking them apart (20_memory.md R42), and the header's bytes as numbers. -/

namespace Sys2Proof

theorem byteAt_toNat {w : Nat} (v : BitVec w) (k : Nat) : (byteAt v k).toNat = v.toNat / 2 ^ (8 * k) % 256 := by
  simp [byteAt, BitVec.extractLsb'_toNat, Nat.shiftRight_eq_div_pow]

theorem append_toNat {m n : Nat} (x : BitVec m) (y : BitVec n) :
    (x ++ y).toNat = x.toNat * 2 ^ n + y.toNat := by
  rw [BitVec.toNat_append, ← Nat.shiftLeft_add_eq_or_of_lt y.isLt, Nat.shiftLeft_eq]

theorem join16_toNat (b1 b0 : Byte) : (join16 b1 b0).toNat = 256 * b1.toNat + b0.toNat := by
  simp only [join16, append_toNat]
  omega

theorem join32_toNat (b3 b2 b1 b0 : Byte) :
    (join32 b3 b2 b1 b0).toNat
      = 65536 * (256 * b3.toNat + b2.toNat) + (256 * b1.toNat + b0.toNat) := by
  simp only [join32, append_toNat]
  omega

theorem join16_byteAt (v : Half) : join16 (byteAt v 1) (byteAt v 0) = v := by
  apply BitVec.eq_of_toNat_eq
  simp only [join16_toNat, byteAt_toNat]
  have := v.isLt
  omega

theorem join32_byteAt (v : Addr) : join32 (byteAt v 3) (byteAt v 2) (byteAt v 1) (byteAt v 0) = v := by
  apply BitVec.eq_of_toNat_eq
  simp only [join32_toNat, byteAt_toNat]
  have := v.isLt
  omega

theorem be16_join16 (b1 b0 : Byte) : be16 (join16 b1 b0) = [b1, b0] := by
  have h1 := b1.isLt
  have h0 := b0.isLt
  simp only [be16, List.cons.injEq, and_true]
  constructor <;> apply BitVec.eq_of_toNat_eq <;> simp only [byteAt_toNat, join16_toNat] <;> omega

theorem be32_join32 (b3 b2 b1 b0 : Byte) : be32 (join32 b3 b2 b1 b0) = [b3, b2, b1, b0] := by
  have h3 := b3.isLt
  have h2 := b2.isLt
  have h1 := b1.isLt
  have h0 := b0.isLt
  simp only [be32, List.cons.injEq, and_true]
  refine ⟨?_, ?_, ?_, ?_⟩ <;> apply BitVec.eq_of_toNat_eq <;> simp only [byteAt_toNat, join32_toNat] <;> omega

@[simp] theorem be16_length (v : Half) : (be16 v).length = 2 := rfl
@[simp] theorem be32_length (v : Addr) : (be32 v).length = 4 := rfl

end Sys2Proof

namespace Sys2Proof.Machine

@[simp] theorem wireByte_zero (b : Byte) (B : Bytes) : wireByte (b :: B) 0 = b.toNat := rfl

@[simp] theorem wireByte_succ (b : Byte) (B : Bytes) (i : Nat) : wireByte (b :: B) (i + 1) = wireByte B i := rfl

theorem wireByte_getElem (B : Bytes) (i : Nat) (h : i < B.length) : wireByte B i = B[i].toNat := by
  simp [wireByte, List.getD_eq_getElem?_getD, List.getElem?_eq_getElem h]

theorem wireByte_append_left (A B : Bytes) (i : Nat) (h : i < A.length) :
    wireByte (A ++ B) i = wireByte A i := by
  simp [wireByte, List.getD_eq_getElem?_getD, List.getElem?_append_left h]

theorem wireByte_append_right (A B : Bytes) (i : Nat) : wireByte (A ++ B) (A.length + i) = wireByte B i := by
  simp only [wireByte, List.getD_eq_getElem?_getD]
  rw [List.getElem?_append_right (Nat.le_add_right _ _), Nat.add_sub_cancel_left]

theorem wireHalf_append_left (A B : Bytes) (i : Nat) (h : i + 1 < A.length) :
    wireHalf (A ++ B) i = wireHalf A i := by
  simp only [wireHalf, wireByte_append_left A B i (by omega), wireByte_append_left A B (i + 1) h]

theorem wireAddr_append_left (A B : Bytes) (i : Nat) (h : i + 3 < A.length) :
    wireAddr (A ++ B) i = wireAddr A i := by
  simp only [wireAddr, wireHalf_append_left A B i (by omega), wireHalf_append_left A B (i + 2) (by omega)]

theorem memRead16_toNat (B : Bytes) (off : Nat) (h : off + 2 ≤ B.length) :
    (memRead16 B off h).toNat = wireHalf B off := by
  simp only [memRead16, join16_toNat, wireHalf, wireByte_getElem B off (by omega),
    wireByte_getElem B (off + 1) (by omega)]

theorem memRead32_toNat (B : Bytes) (off : Nat) (h : off + 4 ≤ B.length) :
    (memRead32 B off h).toNat = wireAddr B off := by
  simp only [memRead32, join32_toNat, wireAddr, wireHalf, wireByte_getElem B off (by omega),
    wireByte_getElem B (off + 1) (by omega), wireByte_getElem B (off + 2) (by omega),
    wireByte_getElem B (off + 3) (by omega)]

theorem wireHalf_be16 (v : Half) (B : Bytes) : wireHalf (be16 v ++ B) 0 = v.toNat := by
  have h := congrArg BitVec.toNat (join16_byteAt v)
  rw [join16_toNat] at h
  simpa [be16, wireHalf] using h

theorem wireAddr_be32 (v : Addr) (B : Bytes) : wireAddr (be32 v ++ B) 0 = v.toNat := by
  have h := congrArg BitVec.toNat (join32_byteAt v)
  rw [join32_toNat] at h
  simpa [be32, wireAddr, wireHalf] using h

/-! The header. -/

/-- The fields of a datagram, as the numbers on the wire (R93). -/
theorem decodeFields_wire (B : Bytes) (h : headerLen ≤ B.length) :
    (decodeFields B h).dscp.toNat = wireByte B 1 / 4 ∧ (decodeFields B h).ecn.toNat = wireByte B 1 % 4 ∧
    (decodeFields B h).ident.toNat = wireHalf B 4 ∧
    (decodeFields B h).flags.toNat = wireHalf B 6 / 8192 ∧
    (decodeFields B h).frag.toNat = wireHalf B 6 % 8192 ∧
    (decodeFields B h).ttl.toNat = wireByte B 8 ∧ (decodeFields B h).proto.toNat = wireByte B 9 ∧
    (decodeFields B h).src.toNat = wireAddr B 12 ∧ (decodeFields B h).dst.toNat = wireAddr B 16 ∧
    (decodeFields B h).payload = B.drop 20 := by
  have h' : 20 ≤ B.length := h
  have h1 := wireByte_getElem B 1 (by omega)
  have h8 := wireByte_getElem B 8 (by omega)
  have h9 := wireByte_getElem B 9 (by omega)
  have b1 := B[1].isLt
  have b6 := (memRead16 B 6 (by omega)).isLt
  rw [memRead16_toNat] at b6
  refine ⟨?_, ?_, ?_, ?_, ?_, h8.symm, h9.symm, ?_, ?_, rfl⟩
  · simp only [decodeFields, BitVec.extractLsb'_toNat, Nat.shiftRight_eq_div_pow, h1]; omega
  · simp only [decodeFields, BitVec.extractLsb'_toNat, Nat.shiftRight_eq_div_pow, h1]; omega
  · simp only [decodeFields, memRead16_toNat]
  · simp only [decodeFields, BitVec.extractLsb'_toNat, memRead16_toNat, Nat.shiftRight_eq_div_pow]; omega
  · simp only [decodeFields, BitVec.extractLsb'_toNat, memRead16_toNat, Nat.shiftRight_eq_div_pow]; omega
  · simp only [decodeFields, memRead32_toNat]
  · simp only [decodeFields, memRead32_toNat]

/-- The bytes of a header, one after another (R96). -/
theorem encodeFields_toList (f : HeaderFields) :
    (encodeFields f).toList =
      versionIhl :: (f.dscp ++ f.ecn) :: be16 f.tlen ++ be16 f.ident ++ be16 (f.flags ++ f.frag) ++
        f.ttl :: f.proto :: be16 f.ck ++ be32 f.src ++ be32 f.dst := rfl

/-- The bytes of a header, as numbers (R96). -/
theorem encodeFields_wire (f : HeaderFields) (P : Bytes) :
    let B := (encodeFields f).toList ++ P
    wireByte B 0 = 0x45 ∧ wireByte B 1 = 4 * f.dscp.toNat + f.ecn.toNat ∧
    wireHalf B 2 = f.tlen.toNat ∧ wireHalf B 4 = f.ident.toNat ∧
    wireHalf B 6 = 8192 * f.flags.toNat + f.frag.toNat ∧
    wireByte B 8 = f.ttl.toNat ∧ wireByte B 9 = f.proto.toNat ∧
    wireHalf B 10 = f.ck.toNat ∧ wireAddr B 12 = f.src.toNat ∧ wireAddr B 16 = f.dst.toNat := by
  have half : ∀ v : Half, 256 * (byteAt v 1).toNat + (byteAt v 0).toNat = v.toNat := fun v => by
    rw [← join16_toNat, join16_byteAt]
  have addr : ∀ v : Addr, 65536 * (256 * (byteAt v 3).toNat + (byteAt v 2).toNat)
      + (256 * (byteAt v 1).toNat + (byteAt v 0).toNat) = v.toNat := fun v => by
    rw [← join32_toNat, join32_byteAt]
  refine ⟨rfl, ?_, half _, half _, ?_, rfl, rfl, half _, addr _, addr _⟩
  · show (f.dscp ++ f.ecn).toNat = _
    rw [append_toNat]; omega
  · refine (half _).trans ?_
    rw [append_toNat]; omega

/-- Decoding an encoded header and a payload (R104). -/
theorem decodeFields_encodeFields (f : HeaderFields) (P : Bytes)
    (h : headerLen ≤ ((encodeFields f).toList ++ P).length) :
    decodeFields ((encodeFields f).toList ++ P) h
      = ⟨f.dscp, f.ecn, f.ident, f.flags, f.frag, f.ttl, f.proto, f.src, f.dst, P⟩ := by
  obtain ⟨-, w1, -, w4, w6, w8, w9, -, w12, w16⟩ := encodeFields_wire f P
  obtain ⟨d1, d2, d3, d4, d5, d6, d7, d8, d9, d10⟩ :=
    decodeFields_wire ((encodeFields f).toList ++ P) h
  have e1 := f.ecn.isLt
  have e2 := f.frag.isLt
  generalize decodeFields ((encodeFields f).toList ++ P) h = d at *
  obtain ⟨dscp, ecn, ident, flags, frag, ttl, proto, src, dst, payload⟩ := d
  simp only at d1 d2 d3 d4 d5 d6 d7 d8 d9 d10
  congr 1
  · apply BitVec.eq_of_toNat_eq; omega
  · apply BitVec.eq_of_toNat_eq; omega
  · apply BitVec.eq_of_toNat_eq; omega
  · apply BitVec.eq_of_toNat_eq; omega
  · apply BitVec.eq_of_toNat_eq; omega
  · apply BitVec.eq_of_toNat_eq; omega
  · apply BitVec.eq_of_toNat_eq; omega
  · apply BitVec.eq_of_toNat_eq; omega
  · apply BitVec.eq_of_toNat_eq; omega

theorem encodeFields_length (f : HeaderFields) : (encodeFields f).toList.length = 20 := by simp

/-- An encoded header and a payload that fits make a datagram the block accepts (R92, R96). -/
theorem decodeOk_encodeFields (f : HeaderFields) (P : Bytes) (h : P.length ≤ maxDgramLen - headerLen) :
    DecodeOk ((encodeFields f).toList ++ P) := by
  refine ⟨?_, ?_, rfl⟩ <;> simp only [List.length_append, encodeFields_length, headerLen, maxDgramLen] at *
    <;> omega

/-- `DecodeOk`, with its first byte as a number (R92). -/
theorem decodeOk_iff (B : Bytes) :
    DecodeOk B ↔ 20 ≤ B.length ∧ B.length ≤ 65535 ∧ wireByte B 0 = 0x45 := by
  cases B with
  | nil => simp [DecodeOk]
  | cons b B =>
    simp only [DecodeOk, List.head?_cons, Option.some.injEq, wireByte_zero, headerLen, maxDgramLen, versionIhl]
    have : b = 0x45#8 ↔ b.toNat = 0x45 :=
      ⟨fun h => by rw [h]; rfl, fun h => BitVec.eq_of_toNat_eq (by rw [h]; rfl)⟩
    rw [this]

end Sys2Proof.Machine
end

