-- ==== Sys2Proof/Laws/Checksum.lean ====
section
/-! SUPPORT. One's-complement sums as numbers: folding the carries gives the number in `1..0xFFFF` congruent to the sum, or 0 (40_codec.md R99, R100). -/

namespace Sys2Proof.Machine

theorem foldedSum_le (S : Nat) : foldedSum S ≤ 65535 := by
  unfold foldedSum
  split <;> omega

theorem foldedSum_of_le {S : Nat} (h : S ≤ 65535) : foldedSum S = S := by
  unfold foldedSum
  split
  · omega
  · rw [Nat.mod_eq_of_lt (by omega)]
    omega

/-- Folding part of a sum before adding the rest changes nothing. -/
theorem foldedSum_add (S n : Nat) : foldedSum (foldedSum S + n) = foldedSum (S + n) := by
  unfold foldedSum
  split
  · rename_i h; simp [h]
  · rw [if_neg (by omega), if_neg (by omega)]
    omega

/-- Two rounds of end-around carry are enough for ten words (log 17). -/
theorem foldCarries_two {S : Nat} (h : S ≤ 655350) : foldCarries 2 S = foldedSum S := by
  have hand : ∀ n : Nat, n &&& 0xFFFF = n % 65536 := fun n => Nat.and_two_pow_sub_one_eq_mod n 16
  have hshift : ∀ n : Nat, n >>> 16 = n / 65536 := fun n => Nat.shiftRight_eq_div_pow n 16
  simp only [foldCarries, hand, hshift, foldedSum]
  split
  · split
    · rw [if_neg (by omega)]; omega
    · rw [if_neg (by omega)]; omega
  · split <;> omega

theorem wordSum_eq (H : Header) : wordSum H = wireSum H.toList := by
  have half : ∀ (i : Nat) (h : i + 1 < 20), (join16 H[i] H[i + 1]).toNat = wireHalf H.toList i := by
    intro i h
    rw [join16_toNat, wireHalf, wireByte_getElem _ i (by simp; omega), wireByte_getElem _ (i + 1) (by simp; omega)]
    simp
  simp [wordSum, headerWords, wireSum, List.range_succ, half]

theorem wireHalf_le (B : Bytes) (i : Nat) : wireHalf B i ≤ 65535 := by
  have h1 := (B.getD i 0#8).isLt
  have h0 := (B.getD (i + 1) 0#8).isLt
  simp only [wireHalf, wireByte]
  omega

theorem wireSum_le (B : Bytes) : wireSum B ≤ 655350 := by
  have h := wireHalf_le B
  simp only [wireSum, List.range_succ, List.range_zero, List.nil_append, List.cons_append, List.map_cons,
    List.map_nil, List.sum_cons, List.sum_nil]
  have := h (2 * 0); have := h (2 * 1); have := h (2 * 2); have := h (2 * 3); have := h (2 * 4)
  have := h (2 * 5); have := h (2 * 6); have := h (2 * 7); have := h (2 * 8); have := h (2 * 9)
  omega

/-- `OnesSum(H)` as a number (R99). -/
theorem onesSum_toNat (H : Header) : (onesSum H).toNat = foldedSum (wireSum H.toList) := by
  have h := wireSum_le H.toList
  have h' := foldedSum_le (wireSum H.toList)
  rw [onesSum, wordSum_eq, foldCarries_two h, BitVec.toNat_ofNat, Nat.mod_eq_of_lt (by omega)]

/-- `Checksum16(H)` as a number (R100). -/
theorem checksum16_toNat (H : Header) : (checksum16 H).toNat = 65535 - foldedSum (wireSum H.toList) := by
  rw [checksum16, BitVec.toNat_not, onesSum_toNat]

theorem onesAdd_toNat (a b : Half) : (onesAdd a b).toNat = foldedSum (a.toNat + b.toNat) := by
  have ha := a.isLt
  have hb := b.isLt
  unfold onesAdd foldedSum
  split
  · rw [if_neg (by omega)]
    simp only [BitVec.toNat_add, BitVec.toNat_ofNat]
    omega
  · simp only [BitVec.toNat_add]
    split <;> omega

/-- Adding each carry back at once gives the folded sum (R99). -/
theorem foldl_onesAdd_toNat (ws : List Half) (a : Half) :
    (ws.foldl onesAdd a).toNat = foldedSum (a.toNat + (ws.map BitVec.toNat).sum) := by
  induction ws generalizing a with
  | nil => simp [foldedSum_of_le (Nat.le_of_lt_succ a.isLt)]
  | cons w ws ih => rw [List.foldl_cons, ih, onesAdd_toNat, foldedSum_add, List.map_cons, List.sum_cons, Nat.add_assoc]

/-- The sum of a header does not depend on what follows it. -/
theorem wireSum_append (A B : Bytes) (h : 20 ≤ A.length) : wireSum (A ++ B) = wireSum A := by
  unfold wireSum
  congr 1
  apply List.map_congr_left
  intro k hk
  rw [List.mem_range] at hk
  exact wireHalf_append_left A B (2 * k) (by omega)

/-- The ten words with the checksum's left out. -/
theorem wireSum_encodeFields_ck (f : HeaderFields) (ck : Half) :
    wireSum (encodeFields { f with ck := ck }).toList
      = wireSum (encodeFields { f with ck := 0#16 }).toList + ck.toNat := by
  have half : ∀ v : Half, 256 * (byteAt v 1).toNat + (byteAt v 0).toNat = v.toNat := fun v => by
    rw [← join16_toNat, join16_byteAt]
  have h1 := half ck
  have h0 := half 0#16
  simp only [BitVec.toNat_ofNat, Nat.zero_mod] at h0
  simp only [wireSum, List.range_succ, List.range_zero, List.nil_append, List.cons_append, List.map_cons,
    List.map_nil, List.sum_cons, List.sum_nil, wireHalf, encodeFields_toList, be16, be32, wireByte_succ,
    wireByte_zero, Nat.mul_zero, Nat.mul_one, Nat.reduceMul, Nat.reduceAdd]
  omega

/-- The header of a datagram that leaves the block, its checksum filled in or zero (R155, R163). -/
theorem sealHeader_spec (ckSkip : Bool) (f : HeaderFields) : ∃ ck : Half,
    sealHeader ckSkip f = encodeFields { f with ck := ck } ∧ (ckSkip = true → ck.toNat = 0) ∧
    (ckSkip = false →
      ck.toNat = 65535 - foldedSum (wireSum (encodeFields { f with ck := 0#16 }).toList)) := by
  cases ckSkip
  · exact ⟨_, rfl, by simp, fun _ => checksum16_toNat _⟩
  · exact ⟨0#16, rfl, by simp, by simp⟩

/-- A checksum filled in makes the sum all ones (R102). -/
theorem foldedSum_complement {S : Nat} : foldedSum (S + (65535 - foldedSum S)) = 65535 := by
  unfold foldedSum
  split
  · rename_i h; simp [h]
  · rw [if_neg (by omega)]; omega

/-- The bytes of a datagram that leaves the block, as numbers: every field as given, and a checksum that makes
the header sum to all ones, or is zero (R96, R155, R163). -/
theorem sealHeader_wire (ckSkip : Bool) (f : HeaderFields) (P B : Bytes)
    (hB : B = (sealHeader ckSkip f).toList ++ P) :
    wireByte B 0 = 0x45 ∧ wireByte B 1 = 4 * f.dscp.toNat + f.ecn.toNat ∧
    wireHalf B 2 = f.tlen.toNat ∧ wireHalf B 4 = f.ident.toNat ∧
    wireHalf B 6 = 8192 * f.flags.toNat + f.frag.toNat ∧
    wireByte B 8 = f.ttl.toNat ∧ wireByte B 9 = f.proto.toNat ∧
    wireAddr B 12 = f.src.toNat ∧ wireAddr B 16 = f.dst.toNat ∧
    (ckSkip = true → wireHalf B 10 = 0) ∧
    (ckSkip = false → wireHalf B 10 = 65535 - foldedSum (wireSum B - wireHalf B 10) ∧
      foldedSum (wireSum B) = 65535) := by
  obtain ⟨ck, hs, hzero, hck⟩ := sealHeader_spec ckSkip f
  obtain ⟨w0, w1, w2, w4, w6, w8, w9, w10, w12, w16⟩ := encodeFields_wire { f with ck := ck } P
  have hsum := wireSum_append (encodeFields { f with ck := ck }).toList P (by simp)
  rw [← hs, ← hB] at w0 w1 w2 w4 w6 w8 w9 w10 w12 w16
  rw [wireSum_encodeFields_ck, ← hs, ← hB] at hsum
  have w10 : wireHalf B 10 = ck.toNat := w10
  refine ⟨w0, w1, w2, w4, w6, w8, w9, w12, w16, fun h => w10.trans (hzero h), fun h => ?_⟩
  rw [hsum, w10, Nat.add_sub_cancel, hck h]
  exact ⟨rfl, foldedSum_complement⟩

end Sys2Proof.Machine
end

