-- ==== Sys2Proof/Laws/State.lean ====
section
/-! SUPPORT. One lemma per field per update of the state, and what the shared operations answer. -/

namespace Sys2Proof.Machine

@[simp] theorem withInput_config (s : State) (b : Bytes) : (s.withInput b).config = s.config := rfl
@[simp] theorem withInput_cfg (s : State) (b : Bytes) : (s.withInput b).cfg = s.cfg := rfl
@[simp] theorem withInput_input (s : State) (b : Bytes) : (s.withInput b).input = b := rfl
@[simp] theorem withInput_out (s : State) (b : Bytes) : (s.withInput b).out = s.out := rfl

@[simp] theorem withCfg_config (s : State) (c : Cfg) : (s.withCfg c).config = s.config := rfl
@[simp] theorem withCfg_cfg (s : State) (c : Cfg) : (s.withCfg c).cfg = c := rfl
@[simp] theorem withCfg_input (s : State) (c : Cfg) : (s.withCfg c).input = s.input := rfl
@[simp] theorem withCfg_out (s : State) (c : Cfg) : (s.withCfg c).out = s.out := rfl

@[simp] theorem respond_config (s : State) (r : Response) : (s.respond r).config = s.config := rfl
@[simp] theorem respond_cfg (s : State) (r : Response) : (s.respond r).cfg = s.cfg := rfl
@[simp] theorem respond_input (s : State) (r : Response) : (s.respond r).input = s.input := rfl
@[simp] theorem respond_out (s : State) (r : Response) : (s.respond r).out = s.out ++ [r] := rfl

theorem withInput_withInput (s : State) (a b : Bytes) : (s.withInput a).withInput b = s.withInput b := rfl
theorem withInput_self (s : State) : s.withInput s.input = s := rfl
theorem withCfg_self (s : State) : s.withCfg s.cfg = s := rfl
theorem withCfg_withInput (s : State) (c : Cfg) (b : Bytes) :
    (s.withInput b).withCfg c = (s.withCfg c).withInput b := rfl
theorem respond_withInput (s : State) (r : Response) (b : Bytes) :
    (s.withInput b).respond r = (s.respond r).withInput b := rfl

/-- An operation that ends normally answers the state with its response. -/
theorem finish_eq (st : Status) (res : Result) (ev : Option Event) (s : State) :
    finish st res ev s = .next (s.respond ⟨st, res, ev⟩) := rfl

/-- An operation that raises answers the state with its status, and no event. -/
theorem raise_eq (st : Status) (info : Result) (s : State) :
    raise st info s = .next (s.respond ⟨st, info, none⟩) := rfl

theorem illegalCommand_eq (s : State) :
    illegalCommand s = .next (s.respond ⟨.illegalCommand, .none, none⟩) := rfl

/-- Two responses to states with one observation are equal only if the responses are. -/
theorem respond_inj {s t : State} {r r' : Response} (h : s.respond r = t.respond r') : r = r' := by
  have := congrArg State.out h
  simpa using (List.append_inj' this (by simp)).2

@[simp] theorem events_respond (s : State) (r : Response) :
    (s.respond r).events = s.events ++ r.event.toList := by
  cases r with | mk st res ev => cases ev <;> simp [State.events]

end Sys2Proof.Machine
end

