-- ==== Sys2Proof/Laws/Table.lean ====
section
/-! SUPPORT. Longest-prefix match: containment as numbers, and what the scan of the table finds (41_forwarding.md R111 to R118). -/

namespace Sys2Proof.Machine

theorem mask_getLsbD {p i : Nat} (hp : p ≤ 32) (hi : i < 32) :
    (mask p).getLsbD i = decide (32 - p ≤ i) := by
  simp only [mask, BitVec.getLsbD_ofNat, hi, decide_true, Bool.true_and, Nat.testBit_shiftLeft,
    Nat.testBit_two_pow_sub_one, prefixMax]
  by_cases h : 32 - p ≤ i
  · simp [h]; omega
  · simp [h]

/-- Masking on both sides compares the bits above the mask's end. -/
theorem contains_iff {e : RouteEntry} (a : Addr) (h : RouteLegal e) :
    contains e a = true ↔ inPrefix e a := by
  have h : e.plen.toNat ≤ 32 := h
  simp only [contains, beq_iff_eq, inPrefix]
  generalize hp : e.plen.toNat = p at *
  constructor
  · intro heq
    apply Nat.eq_of_testBit_eq
    intro j
    rw [Nat.testBit_div_two_pow, Nat.testBit_div_two_pow]
    by_cases hj : j + (32 - p) < 32
    · have := congrArg (fun v : Addr => v.getLsbD (j + (32 - p))) heq
      simpa [BitVec.getLsbD_and, mask_getLsbD h hj, BitVec.testBit_toNat] using this
    · have := fun v : Addr => Nat.testBit_lt_two_pow
        (Nat.lt_of_lt_of_le v.isLt (Nat.pow_le_pow_right (by omega) (by omega : 32 ≤ j + (32 - p))))
      rw [this a, this e.net]
  · intro heq
    apply BitVec.eq_of_getLsbD_eq
    intro i hi
    simp only [BitVec.getLsbD_and, mask_getLsbD h hi]
    by_cases hj : 32 - p ≤ i
    · have := congrArg (fun n : Nat => n.testBit (i - (32 - p))) heq
      simp only [Nat.testBit_div_two_pow, Nat.sub_add_cancel hj] at this
      simpa [hj, BitVec.getLsbD] using this
    · simp [hj]

/-- One entry of the scan, said in numbers. -/
theorem lpmStep_some {a : Addr} {best : Option RouteEntry} {e b : RouteEntry}
    (h : lpmStep a best e = some b) :
    (b = e ∧ contains e a = true ∧ ∀ b', best = some b' → b'.plen.toNat < e.plen.toNat) ∨
    (best = some b ∧ (contains e a = true → e.plen.toNat ≤ b.plen.toNat)) := by
  unfold lpmStep at h
  split at h
  · rename_i hc
    split at h
    · rename_i hb
      cases h
      exact .inl ⟨rfl, hc, by simp⟩
    · rename_i b'
      split at h
      · rename_i hgt
        cases h
        refine .inl ⟨rfl, hc, ?_⟩
        rintro _ ⟨⟩
        exact hgt
      · rename_i hgt
        cases h
        exact .inr ⟨rfl, fun _ => Nat.le_of_not_lt hgt⟩
  · rename_i hc
    exact .inr ⟨h, fun hc' => absurd hc' hc⟩

theorem lpmStep_none {a : Addr} {best : Option RouteEntry} {e : RouteEntry}
    (h : lpmStep a best e = none) : best = none ∧ contains e a = false := by
  unfold lpmStep at h
  split at h
  · split at h
    · cases h
    · split at h <;> cases h
  · rename_i hc
    exact ⟨h, by simpa using hc⟩

theorem scan_none {T : List RouteEntry} {a : Addr} (h : T.foldl (lpmStep a) none = none) :
    ∀ e ∈ T, contains e a = false := by
  induction T using List.reverseRecOn with
  | nil => simp
  | append_singleton T x ih =>
    intro e he
    rw [List.foldl_append, List.foldl_cons, List.foldl_nil] at h
    obtain ⟨h1, h2⟩ := lpmStep_none h
    rcases List.mem_append.mp he with he | he
    · exact ih h1 e he
    · rw [List.mem_singleton] at he; rw [he]; exact h2

/-- What the scan of a table finds: its first entry of greatest prefix length that contains the address. -/
theorem scan_some {T : List RouteEntry} {a : Addr} {b : RouteEntry} (h : T.foldl (lpmStep a) none = some b) :
    ∃ i : Nat, T[i]? = some b ∧ contains b a = true ∧
      ∀ (j : Nat) e', T[j]? = some e' → contains e' a = true →
        e'.plen.toNat ≤ b.plen.toNat ∧ (j < i → e'.plen.toNat < b.plen.toNat) := by
  induction T using List.reverseRecOn generalizing b with
  | nil => simp at h
  | append_singleton T e ih =>
    rw [List.foldl_append, List.foldl_cons, List.foldl_nil] at h
    have old : ∀ (j : Nat) e', (T ++ [e])[j]? = some e' → T[j]? = some e' ∧ j < T.length ∨ e' = e ∧ j = T.length := by
      intro j e' he
      by_cases hj : j < T.length
      · exact .inl ⟨by rwa [List.getElem?_append_left hj] at he, hj⟩
      · rw [List.getElem?_append_right (by omega)] at he
        have hj' : j - T.length = 0 := by
          by_contra hne
          obtain ⟨m, hm⟩ := Nat.exists_eq_succ_of_ne_zero hne
          simp [hm] at he
        simp only [hj', List.getElem?_cons_zero, Option.some.injEq] at he
        exact .inr ⟨he.symm, by omega⟩
    obtain ⟨rfl, hc, hlt⟩ | ⟨hb, hle⟩ := lpmStep_some h
    · refine ⟨T.length, by simp, hc, ?_⟩
      have shorter : ∀ (j : Nat) e', T[j]? = some e' → contains e' a = true → e'.plen.toNat < b.plen.toNat := by
        intro j e' he hce
        cases hf : T.foldl (lpmStep a) none with
        | some b' =>
          obtain ⟨_, _, _, hall⟩ := ih hf
          exact Nat.lt_of_le_of_lt (hall j e' he hce).1 (hlt b' hf)
        | none =>
          exfalso
          have := scan_none hf e' (List.mem_of_getElem? he)
          rw [this] at hce
          cases hce
      intro j e' he hce
      obtain ⟨he, -⟩ | ⟨rfl, rfl⟩ := old j e' he
      · exact ⟨Nat.le_of_lt (shorter j e' he hce), fun _ => shorter j e' he hce⟩
      · exact ⟨Nat.le_refl _, fun h => absurd h (Nat.lt_irrefl _)⟩
    · obtain ⟨i, hi, hc, hall⟩ := ih hb
      have hil : i < T.length := (List.getElem?_eq_some_iff.mp hi).1
      refine ⟨i, by rwa [List.getElem?_append_left hil], hc, ?_⟩
      intro j e' he hce
      obtain ⟨he, -⟩ | ⟨rfl, rfl⟩ := old j e' he
      · exact hall j e' he hce
      · exact ⟨hle hce, fun h => absurd h (by omega)⟩

/-- Two places that are both best are one place. -/
theorem bestAt_unique {T : List RouteEntry} {a : Addr} {i j : Nat} (hi : bestAt T a i) (hj : bestAt T a j) :
    i = j := by
  obtain ⟨e, he, hie, hall⟩ := hi
  obtain ⟨e', he', hie', hall'⟩ := hj
  have h1 := hall j e' he' hie'
  have h2 := hall' i e he hie
  rcases Nat.lt_trichotomy i j with h | h | h
  · have := h2.2 h; omega
  · exact h
  · have := h1.2 h; omega

/-- `Lpm` in a legal table, by cases: the next hop of the best place, or no place at all (R116, R118). -/
theorem lpm_cases {T : List RouteEntry} (a : Addr) (hT : ∀ e ∈ T, RouteLegal e) :
    (∃ i e, bestAt T a i ∧ T[i]? = some e ∧ lpm T a = .route e.nh) ∨
    ((∀ e ∈ T, ¬ inPrefix e a) ∧ lpm T a = .noRoute) := by
  cases hs : T.foldl (lpmStep a) none with
  | some b =>
    obtain ⟨i, hi, hc, hall⟩ := scan_some hs
    refine .inl ⟨i, b, ⟨b, hi, (contains_iff a (hT b (List.mem_of_getElem? hi))).mp hc, ?_⟩, hi, by simp [lpm, hs]⟩
    intro j e' he hp
    exact hall j e' he ((contains_iff a (hT e' (List.mem_of_getElem? he))).mpr hp)
  | none =>
    refine .inr ⟨fun e he hp => ?_, by simp [lpm, hs]⟩
    have := scan_none hs e he
    rw [(contains_iff a (hT e he)).mpr hp] at this
    cases this

/-- The next hop of the best place. -/
theorem lpm_of_bestAt {T : List RouteEntry} {a : Addr} {i : Nat} {e : RouteEntry}
    (hT : ∀ e ∈ T, RouteLegal e) (hb : bestAt T a i) (he : T[i]? = some e) : lpm T a = .route e.nh := by
  obtain ⟨j, e', hj, he', hl⟩ | ⟨hno, -⟩ := lpm_cases a hT
  · cases bestAt_unique hb hj
    rw [he] at he'
    cases he'
    exact hl
  · obtain ⟨b, hbi, hp, -⟩ := hb
    exact absurd hp (hno b (List.mem_of_getElem? hbi))

/-- No entry contains the address. -/
theorem lpm_of_none {T : List RouteEntry} {a : Addr} (hT : ∀ e ∈ T, RouteLegal e)
    (h : ∀ e ∈ T, ¬ inPrefix e a) : lpm T a = .noRoute := by
  obtain ⟨i, e, ⟨b, hbi, hp, -⟩, -, -⟩ | ⟨-, hl⟩ := lpm_cases a hT
  · exact absurd hp (h b (List.mem_of_getElem? hbi))
  · exact hl

/-- `SET_ROUTES` finds nothing wrong exactly with a legal list within the capacity (R114). -/
theorem routesError_none {capacity : Nat} {E : List RouteEntry} :
    routesError capacity E = none ↔ E.length ≤ capacity ∧ ∀ e ∈ E, RouteLegal e := by
  unfold routesError
  split
  · simp; omega
  · simp only [Option.map_eq_none_iff, badPrefix, List.findIdx?_eq_none_iff, Bool.not_eq_eq_eq_not,
      Bool.not_false, decide_eq_true_eq]
    constructor
    · exact fun h => ⟨by omega, h⟩
    · exact fun h => h.2

end Sys2Proof.Machine
end

