-- ==== Sys2Proof/Laws/Exec.lean ====
section
/-! SUPPORT. Once for each operation, all it can do; later proofs cite these and unfold no operation again. -/

namespace Sys2Proof.Machine

/-! The codec. -/

theorem execDecode_ok {B : Bytes} (h : DecodeOk B) (s : State) :
    execDecode B s = .next (s.respond ⟨.ok, .fields (decodeFields B h.1), none⟩) := dif_pos h

theorem execDecode_malformed {B : Bytes} (h : ¬ DecodeOk B) (s : State) :
    execDecode B s = .next (s.respond ⟨.decodeError, .none, none⟩) := dif_neg h

/-! The forwarding table. -/

/-- A refused list: nothing but the status and its info (R114, R115). -/
theorem execSetRoutes_refused {E : List RouteEntry} {s : State} {i : Nat} {reason : ConfigReason}
    (h : routesError s.config.routeCapacity E = some (i, reason)) :
    execSetRoutes E s = .next (s.respond ⟨.configError, .configInfo i reason, none⟩) := by
  simp [execSetRoutes, h, raise_eq]

/-- An accepted list: the whole table is replaced (R113, R115). -/
theorem execSetRoutes_accepted {E : List RouteEntry} {s : State}
    (h : routesError s.config.routeCapacity E = none) :
    execSetRoutes E s = .next ((s.withCfg { s.cfg with routes := E }).respond ⟨.ok, .none, none⟩) := by
  simp [execSetRoutes, h, finish_eq]

theorem execLookup_route {a nh : Addr} {s : State} (h : lpm s.cfg.routes a = .route nh) :
    execLookup a s = .next (s.respond ⟨.ok, .nextHop nh, none⟩) := by
  simp [execLookup, h, finish_eq]

theorem execLookup_noRoute {a : Addr} {s : State} (h : lpm s.cfg.routes a = .noRoute) :
    execLookup a s = .next (s.respond ⟨.noRoute, .none, none⟩) := by
  simp [execLookup, h, finish_eq]

/-! Classification. -/

theorem isLocal_iff (c : Cfg) (a : Addr) :
    isLocal c a = true ↔ c.localValid = true ∧ a.toNat = c.localAddr.toNat := by
  simp [isLocal, BitVec.toNat_inj]

/-- A datagram's destination is local, said in numbers (R133). -/
theorem classify_deliver {c : Cfg} {a : Addr} (h : c.localValid = true ∧ a.toNat = c.localAddr.toNat) :
    classify c a = .deliver := if_pos ((isLocal_iff c a).mpr h)

theorem classify_forward {c : Cfg} {a : Addr} (h : ¬ (c.localValid = true ∧ a.toNat = c.localAddr.toNat)) :
    classify c a = .forward := if_neg (fun h' => h ((isLocal_iff c a).mp h'))

theorem execClassify_ok {B : Bytes} (h : DecodeOk B) (s : State) :
    execClassify B s =
      .next (s.respond ⟨.ok, .dispatch (classify s.cfg (memRead32 B 16 h.1)), none⟩) := dif_pos h

theorem execClassify_malformed {B : Bytes} (h : ¬ DecodeOk B) (s : State) :
    execClassify B s = .next (s.respond ⟨.decodeError, .none, none⟩) := dif_neg h

/-! Receive. -/

theorem execReceive_malformed {skip : Bool} {B : Bytes} (h : ¬ DecodeOk B) (s : State) :
    execReceive skip B s = .next (s.respond ⟨.decodeError, .none, none⟩) := dif_neg h

/-- Host mode (R143). -/
theorem execReceive_local {skip : Bool} {B : Bytes} (h : DecodeOk B) {s : State}
    (hl : s.cfg.localValid = true ∧ wireAddr B 16 = s.cfg.localAddr.toNat) :
    execReceive skip B s = receiveLocal (decodeFields B h.1) s := by
  have hd := (decodeFields_wire B h.1).2.2.2.2.2.2.2.2.1
  rw [execReceive, dif_pos h]
  simp only [classify_deliver (c := s.cfg) (a := (decodeFields B h.1).dst) (by rw [hd]; exact hl)]

/-- Router mode (R143). -/
theorem execReceive_remote {skip : Bool} {B : Bytes} (h : DecodeOk B) {s : State}
    (hl : ¬ (s.cfg.localValid = true ∧ wireAddr B 16 = s.cfg.localAddr.toNat)) :
    execReceive skip B s = receiveRemote skip (decodeFields B h.1) s := by
  have hd := (decodeFields_wire B h.1).2.2.2.2.2.2.2.2.1
  rw [execReceive, dif_pos h]
  simp only [classify_forward (c := s.cfg) (a := (decodeFields B h.1).dst) (by rw [hd]; exact hl)]

/-- Host mode, by cases (R145 to R147). -/
theorem receiveLocal_cases (d : DecodedFields) (s : State) :
    (d.proto ≠ s.config.supportedProto ∧
      receiveLocal d s = .next (s.respond ⟨.unsupportedProtocol, .none, none⟩)) ∨
    (d.proto = s.config.supportedProto ∧ s.cfg.ulReg = false ∧
      receiveLocal d s = .next (s.respond ⟨.noConsumer, .none, none⟩)) ∨
    (d.proto = s.config.supportedProto ∧ s.cfg.ulReg = true ∧
      receiveLocal d s = .next (s.respond ⟨.delivered, .none, some (.ulDeliver d.src d.dst d.payload)⟩)) := by
  by_cases hp : d.proto = s.config.supportedProto
  · cases hu : s.cfg.ulReg
    · exact .inr (.inl ⟨hp, rfl, by simp [receiveLocal, hp, hu, raise_eq]⟩)
    · exact .inr (.inr ⟨hp, rfl, by simp [receiveLocal, hp, hu, finish_eq]⟩)
  · exact .inl ⟨hp, by simp [receiveLocal, hp, raise_eq]⟩

theorem decrementedTtl_le_zero (ttl : Byte) : decrementedTtl ttl ≤ 0 ↔ ttl.toNat ≤ 1 := by
  unfold decrementedTtl
  omega

/-- The TTL that is written is the received one, less one (R151). -/
theorem decrementedTtl_toNat {ttl : Byte} (h : 1 < ttl.toNat) :
    (BitVec.ofInt 8 (decrementedTtl ttl)).toNat = ttl.toNat - 1 := by
  have := ttl.isLt
  simp only [decrementedTtl, BitVec.toNat_ofInt]
  omega

/-- Router mode, by cases (R151 to R156). -/
theorem receiveRemote_cases (skip : Bool) (d : DecodedFields) (s : State) :
    (d.ttl.toNat ≤ 1 ∧ receiveRemote skip d s = .next (s.respond ⟨.ttlExpired, .none, none⟩)) ∨
    (1 < d.ttl.toNat ∧ lpm s.cfg.routes d.dst = .noRoute ∧
      receiveRemote skip d s = .next (s.respond ⟨.noRoute, .none, none⟩)) ∨
    (∃ nh, 1 < d.ttl.toNat ∧ lpm s.cfg.routes d.dst = .route nh ∧
      receiveRemote skip d s = .next (s.respond ⟨.forwarded, .none, some (linkSend skip
        (forwardFields d (BitVec.ofInt 8 (decrementedTtl d.ttl))) d.payload nh)⟩)) := by
  by_cases ht : d.ttl.toNat ≤ 1
  · exact .inl ⟨ht, by simp [receiveRemote, (decrementedTtl_le_zero d.ttl).mpr ht, raise_eq]⟩
  · have ht' : ¬ decrementedTtl d.ttl ≤ 0 := fun h => ht ((decrementedTtl_le_zero d.ttl).mp h)
    cases hl : lpm s.cfg.routes d.dst with
    | noRoute => exact .inr (.inl ⟨by omega, rfl, by simp [receiveRemote, ht', hl, raise_eq]⟩)
    | route nh => exact .inr (.inr ⟨nh, by omega, rfl, by simp [receiveRemote, ht', hl, finish_eq]⟩)

/-! Send. -/

/-- `SEND`, by cases, in the order of R166. -/
theorem execSend_cases (skip : Bool) (dst : Addr) (P : Bytes) (s : State) :
    (lpm s.cfg.routes dst = .noRoute ∧
      execSend skip dst P s = .next (s.respond ⟨.noRoute, .none, none⟩)) ∨
    (∃ nh, lpm s.cfg.routes dst = .route nh ∧ s.cfg.localValid = false ∧
      execSend skip dst P s = .next (s.respond ⟨.noLocalAddress, .none, none⟩)) ∨
    (∃ nh, lpm s.cfg.routes dst = .route nh ∧ s.cfg.localValid = true ∧ 65515 < P.length ∧
      execSend skip dst P s = .next (s.respond ⟨.payloadTooLarge, .none, none⟩)) ∨
    (∃ nh, lpm s.cfg.routes dst = .route nh ∧ s.cfg.localValid = true ∧ P.length ≤ 65515 ∧
      execSend skip dst P s = .next (s.respond ⟨.ok, .none, some (linkSend skip
        (originFields s.config.supportedProto s.cfg.localAddr dst P) P nh)⟩)) := by
  cases hl : lpm s.cfg.routes dst with
  | noRoute => exact .inl ⟨rfl, by simp [execSend, hl, raise_eq]⟩
  | route nh =>
    cases hv : s.cfg.localValid
    · exact .inr (.inl ⟨nh, rfl, rfl, by simp [execSend, hl, hv, raise_eq]⟩)
    · by_cases hP : P.length ≤ 65515
      · have : ¬ P.length > maxDgramLen - headerLen := by simp only [maxDgramLen, headerLen]; omega
        exact .inr (.inr (.inr ⟨nh, rfl, rfl, hP, by simp [execSend, hl, hv, this, finish_eq]⟩))
      · have : P.length > maxDgramLen - headerLen := by simp only [maxDgramLen, headerLen]; omega
        exact .inr (.inr (.inl ⟨nh, rfl, rfl, by omega, by simp [execSend, hl, hv, this, raise_eq]⟩))

/-! All of them. -/

/-- A command that is not a configuration command answers its state with one response, and what the response
is does not depend on the input or on what has been observed. -/
theorem exec_responds {i : Instr} (h1 : ∀ E, i ≠ .setRoutes E) (h2 : ∀ a, i ≠ .setLocalAddr a)
    (h3 : i ≠ .registerUl) (s : State) : ∃ r, ∀ t : State, t.config = s.config → t.cfg = s.cfg →
      exec i t = .next (t.respond r) := by
  cases i with
  | decode B =>
    by_cases h : DecodeOk B
    · exact ⟨_, fun t _ _ => execDecode_ok h t⟩
    · exact ⟨_, fun t _ _ => execDecode_malformed h t⟩
  | encode f => exact ⟨_, fun _ _ _ => rfl⟩
  | checksum H => exact ⟨_, fun _ _ _ => rfl⟩
  | setRoutes E => exact absurd rfl (h1 E)
  | lookup a =>
    cases hl : lpm s.cfg.routes a with
    | route nh => exact ⟨_, fun t _ hc => execLookup_route (hc ▸ hl)⟩
    | noRoute => exact ⟨_, fun t _ hc => execLookup_noRoute (hc ▸ hl)⟩
  | setLocalAddr a => exact absurd rfl (h2 a)
  | registerUl => exact absurd rfl h3
  | classify B =>
    by_cases h : DecodeOk B
    · exact ⟨_, fun t _ hc => hc ▸ execClassify_ok h t⟩
    · exact ⟨_, fun t _ _ => execClassify_malformed h t⟩
  | receive skip B =>
    by_cases h : DecodeOk B
    · by_cases hl : s.cfg.localValid = true ∧ wireAddr B 16 = s.cfg.localAddr.toNat
      · obtain ⟨hp, -⟩ | ⟨hp, hu, -⟩ | ⟨hp, hu, -⟩ := receiveLocal_cases (decodeFields B h.1) s
        · refine ⟨⟨.unsupportedProtocol, .none, none⟩, fun t hf hc => ?_⟩
          rw [exec, execReceive_local h (hc ▸ hl)]
          simp only [receiveLocal, hf, ne_eq, hp, not_false_eq_true, if_true, raise_eq]
        · refine ⟨⟨.noConsumer, .none, none⟩, fun t hf hc => ?_⟩
          rw [exec, execReceive_local h (hc ▸ hl)]
          simp only [receiveLocal, hf, hc, hp, hu, ne_eq, not_true, if_false, if_true, raise_eq]
        · let d := decodeFields B h.1
          refine ⟨⟨.delivered, .none, some (.ulDeliver d.src d.dst d.payload)⟩, fun t hf hc => ?_⟩
          rw [exec, execReceive_local h (hc ▸ hl)]
          simp only [receiveLocal, hf, hc, hp, hu, ne_eq, not_true, if_false, Bool.true_eq_false, finish_eq, d]
      · have ht' := decrementedTtl_le_zero (decodeFields B h.1).ttl
        obtain ⟨ht, -⟩ | ⟨ht, hr, -⟩ | ⟨nh, ht, hr, -⟩ := receiveRemote_cases skip (decodeFields B h.1) s
        · refine ⟨⟨.ttlExpired, .none, none⟩, fun t hf hc => ?_⟩
          rw [exec, execReceive_remote h (hc ▸ hl)]
          simp only [receiveRemote, ht'.mpr ht, if_true, raise_eq]
        · have ht' : ¬ decrementedTtl (decodeFields B h.1).ttl ≤ 0 := by omega
          refine ⟨⟨.noRoute, .none, none⟩, fun t hf hc => ?_⟩
          rw [exec, execReceive_remote h (hc ▸ hl)]
          simp only [receiveRemote, ht', if_false, hc, hr, raise_eq]
        · have ht' : ¬ decrementedTtl (decodeFields B h.1).ttl ≤ 0 := by omega
          let d := decodeFields B h.1
          refine ⟨⟨.forwarded, .none, some (linkSend skip
            (forwardFields d (BitVec.ofInt 8 (decrementedTtl d.ttl))) d.payload nh)⟩, fun t hf hc => ?_⟩
          rw [exec, execReceive_remote h (hc ▸ hl)]
          simp only [receiveRemote, ht', if_false, hc, hr, finish_eq, d]
    · exact ⟨_, fun t _ _ => execReceive_malformed h t⟩
  | send skip dst P =>
    obtain ⟨hr, -⟩ | ⟨nh, hr, hv, -⟩ | ⟨nh, hr, hv, hP, -⟩ | ⟨nh, hr, hv, hP, -⟩ := execSend_cases skip dst P s
    · refine ⟨⟨.noRoute, .none, none⟩, fun t _ hc => ?_⟩
      simp only [exec, execSend, hc, hr, raise_eq]
    · refine ⟨⟨.noLocalAddress, .none, none⟩, fun t _ hc => ?_⟩
      simp only [exec, execSend, hc, hr, hv, if_true, raise_eq]
    · refine ⟨⟨.payloadTooLarge, .none, none⟩, fun t _ hc => ?_⟩
      simp only [exec, execSend, hc, hr, hv, Bool.true_eq_false, if_false, maxDgramLen, headerLen,
        show P.length > 65535 - 20 by omega, if_true, raise_eq]
    · refine ⟨⟨.ok, .none, some (linkSend skip
        (originFields s.config.supportedProto s.cfg.localAddr dst P) P nh)⟩, fun t hf hc => ?_⟩
      simp only [exec, execSend, hf, hc, hr, hv, Bool.true_eq_false, if_false, maxDgramLen, headerLen,
        show ¬ P.length > 65535 - 20 by omega, finish_eq]

/-- All that an operation can do: return a status with no effect at all; write `CFG`, for a configuration
command; deliver upward; forward; or send. -/
theorem exec_cases (i : Instr) (s : State) :
    (∃ st res, exec i s = .next (s.respond ⟨st, res, none⟩) ∧ st ≠ .delivered ∧ st ≠ .forwarded) ∨
    (∃ c, exec i s = .next ((s.withCfg c).respond ⟨.ok, .none, none⟩) ∧
      ((∃ E, i = .setRoutes E ∧ E.length ≤ s.config.routeCapacity ∧ (∀ e ∈ E, RouteLegal e) ∧
          c = { s.cfg with routes := E }) ∨
        (∃ a, i = .setLocalAddr a ∧ c = { s.cfg with localValid := true, localAddr := a }) ∨
        (i = .registerUl ∧ c = { s.cfg with ulReg := true }))) ∨
    (∃ skip B, ∃ h : DecodeOk B, i = .receive skip B ∧
      (s.cfg.localValid = true ∧ wireAddr B 16 = s.cfg.localAddr.toNat) ∧
      (decodeFields B h.1).proto = s.config.supportedProto ∧ s.cfg.ulReg = true ∧
      exec i s = .next (s.respond ⟨.delivered, .none, some (.ulDeliver (decodeFields B h.1).src
        (decodeFields B h.1).dst (decodeFields B h.1).payload)⟩)) ∨
    (∃ skip B nh, ∃ h : DecodeOk B, i = .receive skip B ∧
      ¬ (s.cfg.localValid = true ∧ wireAddr B 16 = s.cfg.localAddr.toNat) ∧
      1 < (decodeFields B h.1).ttl.toNat ∧ lpm s.cfg.routes (decodeFields B h.1).dst = .route nh ∧
      exec i s = .next (s.respond ⟨.forwarded, .none, some (linkSend skip (forwardFields (decodeFields B h.1)
        (BitVec.ofInt 8 (decrementedTtl (decodeFields B h.1).ttl))) (decodeFields B h.1).payload nh)⟩)) ∨
    (∃ skip dst P nh, i = .send skip dst P ∧ lpm s.cfg.routes dst = .route nh ∧ s.cfg.localValid = true ∧
      P.length ≤ 65515 ∧
      exec i s = .next (s.respond ⟨.ok, .none, some (linkSend skip
        (originFields s.config.supportedProto s.cfg.localAddr dst P) P nh)⟩)) := by
  cases i with
  | decode B =>
    by_cases h : DecodeOk B
    · exact .inl ⟨_, _, execDecode_ok h s, by simp, by simp⟩
    · exact .inl ⟨_, _, execDecode_malformed h s, by simp, by simp⟩
  | encode f => exact .inl ⟨_, _, rfl, by simp, by simp⟩
  | checksum H => exact .inl ⟨_, _, rfl, by simp, by simp⟩
  | setRoutes E =>
    cases he : routesError s.config.routeCapacity E with
    | some x => exact .inl ⟨_, _, execSetRoutes_refused he, by simp, by simp⟩
    | none =>
      obtain ⟨h1, h2⟩ := routesError_none.mp he
      exact .inr (.inl ⟨_, execSetRoutes_accepted he, .inl ⟨E, rfl, h1, h2, rfl⟩⟩)
  | lookup a =>
    cases hl : lpm s.cfg.routes a with
    | route nh => exact .inl ⟨_, _, execLookup_route hl, by simp, by simp⟩
    | noRoute => exact .inl ⟨_, _, execLookup_noRoute hl, by simp, by simp⟩
  | setLocalAddr a => exact .inr (.inl ⟨_, rfl, .inr (.inl ⟨a, rfl, rfl⟩)⟩)
  | registerUl => exact .inr (.inl ⟨_, rfl, .inr (.inr ⟨rfl, rfl⟩)⟩)
  | classify B =>
    by_cases h : DecodeOk B
    · exact .inl ⟨_, _, execClassify_ok h s, by simp, by simp⟩
    · exact .inl ⟨_, _, execClassify_malformed h s, by simp, by simp⟩
  | receive skip B =>
    by_cases h : DecodeOk B
    · by_cases hl : s.cfg.localValid = true ∧ wireAddr B 16 = s.cfg.localAddr.toNat
      · have hx := execReceive_local (skip := skip) h hl
        obtain ⟨_, h1⟩ | ⟨_, _, h1⟩ | ⟨hp, hu, h1⟩ := receiveLocal_cases (decodeFields B h.1) s
        · exact .inl ⟨_, _, hx.trans h1, by simp, by simp⟩
        · exact .inl ⟨_, _, hx.trans h1, by simp, by simp⟩
        · exact .inr (.inr (.inl ⟨skip, B, h, rfl, hl, hp, hu, hx.trans h1⟩))
      · have hx := execReceive_remote (skip := skip) h hl
        obtain ⟨_, h1⟩ | ⟨_, _, h1⟩ | ⟨nh, ht, hr, h1⟩ := receiveRemote_cases skip (decodeFields B h.1) s
        · exact .inl ⟨_, _, hx.trans h1, by simp, by simp⟩
        · exact .inl ⟨_, _, hx.trans h1, by simp, by simp⟩
        · exact .inr (.inr (.inr (.inl ⟨skip, B, nh, h, rfl, hl, ht, hr, hx.trans h1⟩)))
    · exact .inl ⟨_, _, execReceive_malformed h s, by simp, by simp⟩
  | send skip dst P =>
    obtain ⟨_, h2⟩ | ⟨_, _, _, h2⟩ | ⟨_, _, _, _, h2⟩ | ⟨nh, hr, hv, hP, h2⟩ := execSend_cases skip dst P s
    · exact .inl ⟨_, _, h2, by simp, by simp⟩
    · exact .inl ⟨_, _, h2, by simp, by simp⟩
    · exact .inl ⟨_, _, h2, by simp, by simp⟩
    · exact .inr (.inr (.inr (.inr ⟨skip, dst, P, nh, rfl, hr, hv, hP, h2⟩)))

end Sys2Proof.Machine
end

