-- ==== Sys2Proof/Laws/Listing.lean ====
section
/-! SUPPORT. Each reader of a listing succeeds exactly on what the matching writer writes (30_encoding.md R83). -/

namespace Sys2Proof

/-- A sequence of readers succeeds exactly when the first does and the rest does after it. -/
theorem Read.andThen_ok {α β : Type} {r : Read α} {f : α → Bytes → Read β} {x : β × Bytes} :
    r.andThen f = .ok x ↔ ∃ a bs, r = .ok (a, bs) ∧ f a bs = .ok x := by
  cases r with
  | ok y => obtain ⟨a, bs⟩ := y; simp [Read.andThen]
  | error e => simp [Read.andThen]

theorem readByte_ok {bs rest : Bytes} {b : Byte} : readByte bs = .ok (b, rest) ↔ bs = b :: rest := by
  cases bs <;> simp [readByte]

theorem readHalf_ok {bs rest : Bytes} {v : Half} : readHalf bs = .ok (v, rest) ↔ bs = be16 v ++ rest := by
  constructor
  · intro h
    match bs, h with
    | b1 :: b0 :: bs, h =>
      simp only [readHalf, Except.ok.injEq, Prod.mk.injEq] at h
      obtain ⟨rfl, rfl⟩ := h
      simp [be16_join16]
  · rintro rfl
    simp [be16, readHalf, join16_byteAt]

theorem readAddr_ok {bs rest : Bytes} {v : Addr} : readAddr bs = .ok (v, rest) ↔ bs = be32 v ++ rest := by
  constructor
  · intro h
    match bs, h with
    | b3 :: b2 :: b1 :: b0 :: bs, h =>
      simp only [readAddr, Except.ok.injEq, Prod.mk.injEq] at h
      obtain ⟨rfl, rfl⟩ := h
      simp [be32_join32]
  · rintro rfl
    simp [be32, readAddr, join32_byteAt]

/-- A narrow operand is read exactly when its unused high bits are zero. -/
theorem narrow_ok {n w : Nat} (hw : w ≤ n) {v : BitVec n} {u : BitVec w} {bs rest : Bytes} :
    narrow w v bs = .ok (u, rest) ↔ v = u.setWidth n ∧ bs = rest := by
  have hp : 2 ^ w ≤ 2 ^ n := Nat.pow_le_pow_right (by omega) hw
  have hu := u.isLt
  unfold narrow
  split
  · rename_i h
    simp only [Except.ok.injEq, Prod.mk.injEq]
    refine and_congr_left fun _ => ⟨?_, ?_⟩
    · rintro rfl
      apply BitVec.eq_of_toNat_eq
      simp [Nat.mod_eq_of_lt h]
    · rintro rfl
      apply BitVec.eq_of_toNat_eq
      simp [Nat.mod_eq_of_lt hu, Nat.mod_eq_of_lt (Nat.lt_of_lt_of_le hu hp)]
  · rename_i h
    simp only [reduceCtorEq, false_iff, not_and]
    rintro rfl
    simp [Nat.mod_eq_of_lt (Nat.lt_of_lt_of_le hu hp), hu] at h

/-- A narrow operand with a high bit set is refused (R83). -/
theorem narrow_padding {n w : Nat} {v : BitVec n} (bs : Bytes) (h : 2 ^ w ≤ v.toNat) :
    narrow w v bs = .error .padding := by
  rw [narrow, if_neg (by omega)]

theorem readBits_ok {w : Nat} (hw : w ≤ 8) {bs rest : Bytes} {v : BitVec w} :
    readBits w bs = .ok (v, rest) ↔ bs = writeBits v ++ rest := by
  simp only [readBits, Read.andThen_ok, readByte_ok, narrow_ok hw, writeBits]
  constructor
  · rintro ⟨_, _, rfl, rfl, rfl⟩; rfl
  · rintro rfl; exact ⟨_, _, rfl, rfl, rfl⟩

theorem readFrag_ok {bs rest : Bytes} {v : BitVec 13} :
    readFrag bs = .ok (v, rest) ↔ bs = writeFrag v ++ rest := by
  simp only [readFrag, Read.andThen_ok, readHalf_ok, narrow_ok (show 13 ≤ 16 by omega), writeFrag]
  constructor
  · rintro ⟨_, _, rfl, rfl, rfl⟩; rfl
  · rintro rfl; exact ⟨_, _, rfl, rfl, rfl⟩

theorem readBool_ok {bs rest : Bytes} {v : Bool} :
    readBool bs = .ok (v, rest) ↔ bs = writeBool v ++ rest := by
  simp only [readBool, Read.andThen_ok, readByte_ok, writeBool]
  constructor
  · rintro ⟨b, bs', rfl, h⟩
    split at h
    · rename_i hb; simp at h; obtain ⟨rfl, rfl⟩ := h; simp [hb]
    · split at h
      · rename_i hb; simp at h; obtain ⟨rfl, rfl⟩ := h; simp [hb]
      · simp at h
  · rintro rfl
    exact ⟨_, _, rfl, by cases v <;> simp⟩

theorem readBytes_ok {bs rest B : Bytes} :
    readBytes bs = .ok (B, rest) ↔ B.length < 2 ^ 32 ∧ bs = writeBytes B ++ rest := by
  simp only [readBytes, Read.andThen_ok, readAddr_ok, writeBytes]
  constructor
  · rintro ⟨n, bs', rfl, h⟩
    split at h
    · rename_i hn
      simp only [Except.ok.injEq, Prod.mk.injEq] at h
      obtain ⟨rfl, rfl⟩ := h
      have hl : (bs'.take n.toNat).length = n.toNat := by simp [hn]
      refine ⟨by rw [hl]; exact n.isLt, ?_⟩
      rw [hl, BitVec.ofNat_toNat, BitVec.setWidth_eq, List.append_assoc, List.take_append_drop]
    · simp at h
  · rintro ⟨hB, rfl⟩
    refine ⟨BitVec.ofNat 32 B.length, B ++ rest, by simp, ?_⟩
    have hn : (BitVec.ofNat 32 B.length).toNat = B.length := by
      rw [BitVec.toNat_ofNat, Nat.mod_eq_of_lt hB]
    simp [hn]

theorem readHeader_ok {bs rest : Bytes} {H : Header} :
    readHeader bs = .ok (H, rest) ↔ bs = H.toList ++ rest := by
  unfold readHeader
  constructor
  · intro h
    split at h
    · simp only [Except.ok.injEq, Prod.mk.injEq] at h
      obtain ⟨rfl, rfl⟩ := h
      simp [Vector.toList]
    · simp at h
  · rintro rfl
    rw [dif_pos (by simp)]
    have ht : (H.toList ++ rest).take headerLen = H.toList := List.take_left' (by simp)
    have hd : (H.toList ++ rest).drop headerLen = rest := List.drop_left' (by simp)
    simp only [Except.ok.injEq, Prod.mk.injEq, hd, and_true, ht]
    apply Vector.toArray_inj.mp
    simp [Vector.toList]

theorem readEntry_ok {bs rest : Bytes} {e : RouteEntry} :
    readEntry bs = .ok (e, rest) ↔ bs = writeEntry e ++ rest := by
  simp only [readEntry, Read.andThen_ok, readAddr_ok, readBits_ok (show 6 ≤ 8 by omega), writeEntry,
    Except.ok.injEq, Prod.mk.injEq]
  constructor
  · rintro ⟨_, _, rfl, _, _, rfl, _, _, rfl, rfl, rfl⟩; simp
  · rintro rfl
    exact ⟨_, _, by simp only [List.append_assoc], _, _, rfl, _, _, rfl, rfl, rfl⟩

theorem readEntries_ok {n : Nat} {bs rest : Bytes} {E : List RouteEntry} :
    readEntries n bs = .ok (E, rest) ↔ E.length = n ∧ bs = E.flatMap writeEntry ++ rest := by
  induction n generalizing bs rest E with
  | zero =>
    simp only [readEntries, Except.ok.injEq, Prod.mk.injEq, List.length_eq_zero_iff]
    constructor
    · rintro ⟨rfl, rfl⟩; simp
    · rintro ⟨rfl, rfl⟩; simp
  | succ n ih =>
    simp only [readEntries, Read.andThen_ok, readEntry_ok, ih, Except.ok.injEq, Prod.mk.injEq]
    constructor
    · rintro ⟨e, _, rfl, E', _, ⟨rfl, rfl⟩, rfl, rfl⟩
      simp
    · rintro ⟨h, rfl⟩
      match E, h with
      | e :: E, h =>
        exact ⟨e, _, by simp only [List.flatMap_cons, List.append_assoc], E, rest,
          ⟨by simpa using h, rfl⟩, rfl, rfl⟩

theorem readFields_ok {bs rest : Bytes} {f : HeaderFields} :
    readFields bs = .ok (f, rest) ↔ bs = writeFields f ++ rest := by
  simp only [readFields, Read.andThen_ok, readAddr_ok, readHalf_ok, readByte_ok, readFrag_ok,
    readBits_ok (show 6 ≤ 8 by omega), readBits_ok (show 2 ≤ 8 by omega), readBits_ok (show 3 ≤ 8 by omega),
    writeFields, Except.ok.injEq, Prod.mk.injEq]
  constructor
  · rintro ⟨_, _, rfl, _, _, rfl, _, _, rfl, _, _, rfl, _, _, rfl, _, _, rfl, _, _, rfl, _, _, rfl, _, _, rfl,
      _, _, rfl, _, _, rfl, rfl, rfl⟩
    simp
  · rintro rfl
    exact ⟨_, _, by simp only [List.append_assoc, List.cons_append, List.nil_append],
      _, _, rfl, _, _, rfl, _, _, rfl, _, _, rfl, _, _, rfl, _, _, rfl, _, _, rfl, _, _, rfl,
      _, _, rfl, _, _, rfl, rfl, rfl⟩

/-! Opcodes. -/

theorem ofByte_code (o : Opcode) : Opcode.ofByte o.code = some o := by cases o <;> decide

theorem ofByte_some {b : Byte} {o : Opcode} (h : Opcode.ofByte b = some o) : o.code = b := by
  simpa using List.find?_some h

theorem ofByte_none {b : Byte} : Opcode.ofByte b = none ↔ ∀ o : Opcode, o.code ≠ b := by
  constructor
  · rintro h o rfl
    rw [ofByte_code] at h
    cases h
  · intro h
    cases hb : Opcode.ofByte b with
    | none => rfl
    | some o => exact absurd (ofByte_some hb) (h o)

/-- What an opcode's operands are read from is what the command of that opcode writes. -/
theorem readOperands_ok {o : Opcode} {bs rest : Bytes} {i : Instr} :
    readOperands o bs = .ok (i, rest) → i.opcode = o ∧ i.wf = true ∧ bs = writeOperands i ++ rest := by
  cases o <;> simp only [readOperands, Read.andThen_ok, readBytes_ok, readFields_ok, readHeader_ok,
    readAddr_ok, readEntries_ok, readBool_ok, Except.ok.injEq, Prod.mk.injEq]
  case decode | classify =>
    rintro ⟨B, _, ⟨hB, rfl⟩, rfl, rfl⟩
    exact ⟨rfl, by simpa [Instr.wf, fitsLength] using hB, rfl⟩
  case encode | checksum | lookup | setLocalAddr =>
    rintro ⟨_, _, rfl, rfl, rfl⟩
    exact ⟨rfl, rfl, rfl⟩
  case setRoutes =>
    rintro ⟨n, _, rfl, E, _, ⟨hE, rfl⟩, rfl, rfl⟩
    have hn := n.isLt
    refine ⟨rfl, by simp only [Instr.wf, fitsLength]; exact decide_eq_true (by omega), ?_⟩
    simp [writeOperands, hE]
  case registerUl =>
    rintro ⟨rfl, rfl⟩
    exact ⟨rfl, rfl, rfl⟩
  case receive =>
    rintro ⟨skip, _, rfl, B, _, ⟨hB, rfl⟩, rfl, rfl⟩
    exact ⟨rfl, by simpa [Instr.wf, fitsLength] using hB, by simp [writeOperands]⟩
  case send =>
    rintro ⟨skip, _, rfl, dst, _, rfl, P, _, ⟨hP, rfl⟩, rfl, rfl⟩
    exact ⟨rfl, by simpa [Instr.wf, fitsLength] using hP, by simp [writeOperands]⟩

end Sys2Proof
end

