-- ==== Sys2Proof/Laws/PerInstr.lean ====
section
/-! SUPPORT. One lemma per command: what its layout writes, its reader reads back (30_encoding.md R83). -/

namespace Sys2Proof.Laws.RoundTrip

/-- The operands of a command that has a listing are read back from its layout, whatever follows them. -/
def Statement (i : Instr) : Prop :=
  i.wf = true → ∀ rest, readOperands i.opcode (writeOperands i ++ rest) = .ok (i, rest)

theorem fits {n : Nat} (h : fitsLength n = true) : n < 2 ^ 32 := of_decide_eq_true h

theorem decode (B : Bytes) : Statement (.decode B) := by
  intro h rest
  simp only [Instr.opcode, readOperands, writeOperands, Read.andThen_ok, readBytes_ok]
  exact ⟨B, rest, ⟨fits h, rfl⟩, rfl⟩

theorem encode (f : HeaderFields) : Statement (.encode f) := by
  intro _ rest
  simp only [Instr.opcode, readOperands, writeOperands, Read.andThen_ok, readFields_ok]
  exact ⟨f, rest, rfl, rfl⟩

theorem checksum (H : Header) : Statement (.checksum H) := by
  intro _ rest
  simp only [Instr.opcode, readOperands, writeOperands, Read.andThen_ok, readHeader_ok]
  exact ⟨H, rest, rfl, rfl⟩

theorem setRoutes (E : List RouteEntry) : Statement (.setRoutes E) := by
  intro h rest
  simp only [Instr.opcode, readOperands, writeOperands, Read.andThen_ok, readAddr_ok, readEntries_ok]
  refine ⟨BitVec.ofNat 32 E.length, E.flatMap writeEntry ++ rest, by simp only [List.append_assoc],
    E, rest, ⟨?_, rfl⟩, rfl⟩
  rw [BitVec.toNat_ofNat, Nat.mod_eq_of_lt (fits h)]

theorem lookup (a : Addr) : Statement (.lookup a) := by
  intro _ rest
  simp only [Instr.opcode, readOperands, writeOperands, Read.andThen_ok, readAddr_ok]
  exact ⟨a, rest, rfl, rfl⟩

theorem setLocalAddr (a : Addr) : Statement (.setLocalAddr a) := by
  intro _ rest
  simp only [Instr.opcode, readOperands, writeOperands, Read.andThen_ok, readAddr_ok]
  exact ⟨a, rest, rfl, rfl⟩

theorem registerUl : Statement .registerUl := fun _ _ => rfl

theorem classify (B : Bytes) : Statement (.classify B) := by
  intro h rest
  simp only [Instr.opcode, readOperands, writeOperands, Read.andThen_ok, readBytes_ok]
  exact ⟨B, rest, ⟨fits h, rfl⟩, rfl⟩

theorem receive (ckSkip : Bool) (B : Bytes) : Statement (.receive ckSkip B) := by
  intro h rest
  simp only [Instr.opcode, readOperands, writeOperands, Read.andThen_ok, readBool_ok, readBytes_ok]
  exact ⟨ckSkip, _, List.append_assoc .., B, rest, ⟨fits h, rfl⟩, rfl⟩

theorem send (ckSkip : Bool) (dst : Addr) (P : Bytes) : Statement (.send ckSkip dst P) := by
  intro h rest
  simp only [Instr.opcode, readOperands, writeOperands, Read.andThen_ok, readBool_ok, readAddr_ok, readBytes_ok]
  exact ⟨ckSkip, _, by simp only [List.append_assoc], dst, _, rfl, P, rest, ⟨fits h, rfl⟩, rfl⟩

end Sys2Proof.Laws.RoundTrip
end

