-- ==== Sys2Proof/Laws/Step.lean ====
section
/-! SUPPORT. Once for the step, all it can do; and what an operation does with the command input: nothing. -/

namespace Sys2Proof.Machine

/-- A step that answers a next state idled, answered an illegal opcode, or executed the decoded command. -/
theorem step_cases {s s' : State} (h : step s = .next s') :
    (decode s.input = .idle ∧ s' = s) ∨
    (∃ b rest, decode s.input = .illegal b rest ∧
      s' = (s.withInput rest).respond ⟨.illegalCommand, .none, none⟩) ∨
    (∃ i rest, decode s.input = .command i rest ∧ exec i (s.withInput rest) = .next s') := by
  simp only [step, fetch] at h
  cases hd : decode s.input with
  | idle => rw [hd] at h; cases h; exact .inl ⟨rfl, rfl⟩
  | command i rest => rw [hd] at h; exact .inr (.inr ⟨i, rest, rfl, h⟩)
  | illegal b rest => rw [hd] at h; cases h; exact .inr (.inl ⟨b, rest, rfl, rfl⟩)
  | refused why => rw [hd] at h; cases h

/-- An operation completes, and neither reads nor writes the command input. -/
theorem exec_withInput (i : Instr) (s : State) :
    ∃ s', exec i s = .next s' ∧ ∀ b, exec i (s.withInput b) = .next (s'.withInput b) := by
  by_cases h : (∀ E, i ≠ .setRoutes E) ∧ (∀ a, i ≠ .setLocalAddr a) ∧ i ≠ .registerUl
  · obtain ⟨r, hr⟩ := exec_responds h.1 h.2.1 h.2.2 s
    exact ⟨_, hr s rfl rfl, fun b => hr (s.withInput b) rfl rfl⟩
  · cases i with
    | setRoutes E =>
      cases he : routesError s.config.routeCapacity E with
      | none => exact ⟨_, execSetRoutes_accepted he, fun b => execSetRoutes_accepted (s := s.withInput b) he⟩
      | some x => exact ⟨_, execSetRoutes_refused he, fun b => execSetRoutes_refused (s := s.withInput b) he⟩
    | setLocalAddr a => exact ⟨_, rfl, fun b => rfl⟩
    | registerUl => exact ⟨_, rfl, fun b => rfl⟩
    | _ => simp at h

/-- Two answers with one response each are equal only if the responses are. -/
theorem next_respond_inj {s t : State} {r r' : Response}
    (h : (Host.Outcome.next (s.respond r) : Answer) = .next (t.respond r')) : r = r' :=
  respond_inj (Host.Outcome.next.inj h)

end Sys2Proof.Machine
end

