-- ==== Sys2Proof/Tests/Slice0.lean ====
section
/-! SUPPORT. The model's own tests.  Expected values come from spec/95_test_vectors.md (the vector is named) or from the rule named; the witness theorems give, for each statement with hypotheses, values that meet them. -/

namespace Sys2Proof.Tests

open Sys2Proof.Machine

/-! Helpers. -/

/-- Bytes from numbers. -/
def hex (l : List Nat) : Bytes := l.map (BitVec.ofNat 8)

/-- The response of one operation or step. -/
def answer : Answer → Option Response
  | .next s => s.out.getLast?
  | _ => none

/-- The configuration an operation or step leaves. -/
def cfgAfter : Answer → Option Cfg
  | .next s => some s.cfg
  | _ => none

/-- Why a step stopped. -/
def refusal : Answer → Option Refusal
  | .refused r => some r
  | _ => none

/-- A block of the default parameters. -/
def block (valid : Bool) (addr : Addr) (routes : List RouteEntry) (ul : Bool) : State :=
  State.reset.withCfg ⟨valid, addr, routes, ul⟩

/-- 10.0.0.2, the local address of the vectors. -/
def self : Addr := 0x0A000002#32

/-- `[192.168.0.0/16 -> 10.0.0.1]`. -/
def oneRoute : List RouteEntry := [⟨0xC0A80000#32, 16#6, 0x0A000001#32⟩]

/-- Table T2 of the forwarding vectors. -/
def tableT2 : List RouteEntry :=
  [⟨0#32, 0#6, 0x01010101#32⟩, ⟨0x0A010203#32, 32#6, 0x02020202#32⟩,
   ⟨0x0A010000#32, 16#6, 0x03030303#32⟩, ⟨0x0A010000#32, 16#6, 0x04040404#32⟩]

/-- The block of the router vectors, of the host vectors, and with T2. -/
def router : State := block true self oneRoute false
def host : State := block true self [] true
def withT2 : State := block false 0#32 tableT2 false

def hello : Bytes := hex [0x68, 0x65, 0x6C, 0x6C, 0x6F]

/-- `Hin(t)` of the router vectors, with its checksum, from 10.0.0.5 to 192.168.7.9, carrying "hello". -/
def hin (t ck1 ck0 : Nat) : Bytes :=
  hex [0x45, 0, 0, 0x19, 0, 0, 0, 0, t, 6, ck1, ck0, 0x0A, 0, 0, 5, 0xC0, 0xA8, 7, 9] ++ hello

/-- The datagram of RH1 with the given TTL, protocol and checksum, from 172.16.0.9 to 10.0.0.2. -/
def hostIn (t proto ck1 ck0 : Nat) : Bytes :=
  hex [0x45, 0, 0, 0x17, 0, 7, 0, 0, t, proto, ck1, ck0, 0xAC, 0x10, 0, 9, 0x0A, 0, 0, 2, 1, 2, 3]

/-- Twenty bytes as a header. -/
def header (l : List Nat) (h : (hex l).toArray.size = headerLen) : Header := ⟨(hex l).toArray, h⟩

theorem agreeExcept_of_check {offs : List Nat} {B B' : Bytes} (hl : B.length = B'.length)
    (h : ∀ i < B.length, i ∈ offs ∨ B[i]? = B'[i]?) : agreeExcept offs B B' := by
  refine ⟨hl, fun i hi => ?_⟩
  by_cases hb : i < B.length
  · exact (h i hb).resolve_left hi
  · rw [List.getElem?_eq_none (by omega), List.getElem?_eq_none (by omega)]

theorem bestAt_of_check {T : List RouteEntry} {a : Addr} {i : Nat} (e : RouteEntry) (he : T[i]? = some e)
    (hin : inPrefix e a)
    (h : ∀ p ∈ T.zipIdx, inPrefix p.1 a →
      p.1.plen.toNat ≤ e.plen.toNat ∧ (p.2 < i → p.1.plen.toNat < e.plen.toNat)) : bestAt T a i :=
  ⟨e, he, hin, fun j e' hj => h (e', j) (List.mem_zipIdx_iff_getElem?.mpr hj)⟩

/-! WellFormed: an ill-formed term for each check. -/

theorem too_long {n : Nat} (h : 2 ^ 32 ≤ n) : fitsLength n = false := decide_eq_false (by omega)

theorem test_wf_decode : Instr.wf (.decode (List.replicate (2 ^ 32) 0#8)) = false :=
  too_long (by rw [List.length_replicate])

theorem test_wf_classify : Instr.wf (.classify (List.replicate (2 ^ 32) 0#8)) = false :=
  too_long (by rw [List.length_replicate])

theorem test_wf_receive : Instr.wf (.receive true (List.replicate (2 ^ 32) 0#8)) = false :=
  too_long (by rw [List.length_replicate])

theorem test_wf_send : Instr.wf (.send false self (List.replicate (2 ^ 32) 0#8)) = false :=
  too_long (by rw [List.length_replicate])

theorem test_wf_setRoutes : Instr.wf (.setRoutes (List.replicate (2 ^ 32) ⟨0#32, 0#6, 0#32⟩)) = false :=
  too_long (by rw [List.length_replicate])

theorem short_enough {n : Nat} (h : n < 2 ^ 32) : fitsLength n = true := decide_eq_true h

/-! Decode: each command's listing, opcode bit by bit (R70, R71), operands from the layout of R83. -/

theorem test_decode_decode :
    decode (0b00000001#8 :: hex [0, 0, 0, 2, 0x45, 0x99, 0x21]) = .command (.decode (hex [0x45, 0x99])) [0x21#8] := by
  decide

/-- S2's operands; the padded bytes bit by bit. -/
theorem test_decode_encode :
    decode [0b00000010#8, 0b00101110#8, 0b00000001#8, 0x00#8, 0x28#8, 0xBE#8, 0xEF#8, 0b00000010#8, 0x1A#8, 0xBC#8,
        0x80#8, 0x11#8, 0x12#8, 0x34#8, 0x01#8, 0x02#8, 0x03#8, 0x04#8, 0x05#8, 0x06#8, 0x07#8, 0x08#8]
      = .command (.encode ⟨46#6, 1#2, 40#16, 0xBEEF#16, 2#3, 0x1ABC#13, 128#8, 17#8, 0x1234#16, 0x01020304#32,
          0x05060708#32⟩) [] := by decide

theorem test_decode_checksum :
    decode (0b00000011#8 :: hex (List.range 21)) = .command (.checksum (header (List.range 20) rfl)) [20#8] := by
  decide

/-- P1 line 2. -/
theorem test_decode_setRoutes :
    decode (0b00010000#8 :: hex [0, 0, 0, 1, 0x0A, 0, 0, 0, 0b00011000, 0x0A, 0, 0, 1])
      = .command (.setRoutes [⟨0x0A000000#32, 24#6, 0x0A000001#32⟩]) [] := by decide

/-- P2 line 9. -/
theorem test_decode_lookup :
    decode (0b00010001#8 :: hex [0xC0, 0xA8, 7, 0xC8]) = .command (.lookup 0xC0A807C8#32) [] := by decide

/-- P1 line 4. -/
theorem test_decode_setLocalAddr :
    decode (0b00100000#8 :: hex [0x0A, 0, 0, 2]) = .command (.setLocalAddr 0x0A000002#32) [] := by decide

/-- P3 line 5. -/
theorem test_decode_registerUl : decode [0b00100001#8] = .command .registerUl [] := by decide

/-- P3 line 1. -/
theorem test_decode_classify :
    decode (0b00110000#8 :: hex [0, 0, 0, 0x17] ++ hostIn 0x40 6 0xC4 0xBF)
      = .command (.classify (hostIn 0x40 6 0xC4 0xBF)) [] := by decide

/-- P2 line 3, with `skip`. -/
theorem test_decode_receive :
    decode (0b00110001#8 :: hex [1, 0, 0, 0, 0x19] ++ hin 5 0xE4 0x29) = .command (.receive true (hin 5 0xE4 0x29)) [] := by
  decide

/-- P1 line 5. -/
theorem test_decode_send :
    decode (0b00110010#8 :: hex [0, 8, 8, 8, 8, 0, 0, 0, 2, 0x68, 0x69])
      = .command (.send false 0x08080808#32 (hex [0x68, 0x69])) [] := by decide

/-- Every row of the opcode table is decoded, and runs as the first command after reset. -/
theorem test_table_words : ∀ n ∈ [1, 2, 3, 0x10, 0x11, 0x20, 0x21, 0x30, 0x31, 0x32],
    (decodeTableWord 8 n).isSome = true ∧
    (answer (step (State.reset.withFetchWord 8 n))).map (fun r => decide (r.status = .illegalCommand))
      = some false := by decide

/-- IL1 to IL3. -/
theorem test_illegal : ∀ b ∈ [0x00#8, 0x04#8, 0x12#8, 0x22#8, 0x33#8, 0xFF#8],
    answer (step (State.reset.withInput [b])) = some ⟨.illegalCommand, .none, none⟩ := by decide

/-- R83: a transcriber refuses non-zero padding and a bad `ck_skip`, and bytes that end too soon (log 2). -/
theorem test_refused :
    [hex [0x10, 0, 0, 0, 1, 0x0A, 0, 0, 0, 0x40, 0, 0, 0, 0], hex [0x31, 2, 0, 0, 0, 0], hex [0x11, 1, 2, 3]].map
        (fun bs => refusal (step (State.reset.withInput bs)))
      = [some (.notACommand .padding), some (.notACommand .ckSkip), some (.notACommand .truncated)] := by decide

/-! The codec. -/

/-- DC10. -/
theorem test_decode_fields :
    answer (exec (.decode (hex [0x45, 0x16, 0, 0x14, 0xAB, 0xCD, 0x3F, 0xFF, 2, 6, 0, 0, 1, 1, 1, 1, 2, 2, 2, 2]))
        State.reset)
      = some ⟨.ok, .fields ⟨5#6, 2#2, 0xABCD#16, 1#3, 8191#13, 2#8, 6#8, 0x01010101#32, 0x02020202#32, []⟩,
          none⟩ := by decide

/-- DC4, DC5, DC6, DC7. -/
theorem test_decode_malformed :
    ∀ B ∈ [(hin 64 0 0).take 19, hex (0x46 :: List.replicate 19 0), hex (0x44 :: List.replicate 19 0),
        hex (0x65 :: List.replicate 19 0)],
      answer (exec (.decode B) State.reset) = some ⟨.decodeError, .none, none⟩ := by decide

/-- EN1. -/
theorem test_encode :
    answer (exec (.encode ⟨46#6, 1#2, 40#16, 0xBEEF#16, 2#3, 0#13, 128#8, 17#8, 0#16, 0x01020304#32, 0x05060708#32⟩)
        State.reset)
      = some ⟨.ok, .header (header [0x45, 0xB9, 0, 0x28, 0xBE, 0xEF, 0x40, 0, 0x80, 0x11, 0, 0, 1, 2, 3, 4, 5, 6, 7, 8]
          rfl), none⟩ := by decide

/-- EN4. -/
theorem test_encode_frag :
    answer (exec (.encode ⟨5#6, 2#2, 20#16, 0xABCD#16, 1#3, 8191#13, 2#8, 6#8, 0#16, 0x01010101#32, 0x02020202#32⟩)
        State.reset)
      = some ⟨.ok, .header (header [0x45, 0x16, 0, 0x14, 0xAB, 0xCD, 0x3F, 0xFF, 2, 6, 0, 0, 1, 1, 1, 1, 2, 2, 2, 2]
          rfl), none⟩ := by decide

/-- CK1, CK2, CK8. -/
theorem test_checksum :
    [header [0x45, 0, 0, 0x19, 0, 0, 0, 0, 0x40, 6, 0, 0, 0x0A, 0, 0, 2, 0x0A, 0, 0, 5] rfl,
     header [0x45, 0, 0, 0x73, 0, 0, 0x40, 0, 0x40, 0x11, 0, 0, 0xC0, 0xA8, 0, 1, 0xC0, 0xA8, 0, 0xC7] rfl,
     header [0x45, 0, 0, 0x17, 0, 7, 0, 0, 0x40, 6, 0x12, 0x34, 0xAC, 0x10, 0, 9, 0x0A, 0, 0, 2] rfl].map
        (fun H => answer (exec (.checksum H) State.reset))
      = [some ⟨.ok, .checksum 0x66D9#16, none⟩, some ⟨.ok, .checksum 0xB861#16, none⟩,
         some ⟨.ok, .checksum 0xB28B#16, none⟩] := by decide

/-- CK3 to CK6: no word, exactly `FFFF`, one carry, nine carries. -/
theorem test_checksum_carry :
    [header (List.replicate 20 0) rfl, header ([0x45, 0, 0xBA, 0xFF] ++ List.replicate 16 0) rfl,
     header ([0xFF, 0xFF, 0, 1] ++ List.replicate 16 0) rfl, header (List.replicate 20 0xFF) rfl].map checksum16
      = [0xFFFF#16, 0x0000#16, 0xFFFE#16, 0x0000#16] := by decide

/-! The forwarding table. -/

/-- The table of R111. -/
theorem test_mask : [0, 1, 8, 16, 24, 31, 32].map mask
    = [0x00000000#32, 0x80000000#32, 0xFF000000#32, 0xFFFF0000#32, 0xFFFFFF00#32, 0xFFFFFFFE#32, 0xFFFFFFFF#32] := by
  decide

/-- FT12, and T2 itself at capacity 4. -/
theorem test_setRoutes :
    (cfgAfter (exec (.setRoutes tableT2) State.reset)).map Cfg.routes = some tableT2 ∧
    (cfgAfter (exec (.setRoutes []) withT2)).map Cfg.routes = some [] := by decide

/-- FT9, FT10, FT11. -/
theorem test_setRoutes_refused :
    [tableT2 ++ [⟨0#32, 0#6, 0#32⟩], List.replicate 5 ⟨0#32, 63#6, 0#32⟩,
     [⟨0#32, 0#6, 0#32⟩, ⟨0#32, 33#6, 0#32⟩, ⟨0#32, 40#6, 0#32⟩]].map
        (fun E => (answer (exec (.setRoutes E) withT2), (cfgAfter (exec (.setRoutes E) withT2)).map Cfg.routes))
      = [(some ⟨.configError, .configInfo 4 .capacity, none⟩, some tableT2),
         (some ⟨.configError, .configInfo 4 .capacity, none⟩, some tableT2),
         (some ⟨.configError, .configInfo 1 .prefixRange, none⟩, some tableT2)] := by decide

/-- FT1, FT2, FT4, FT5. -/
theorem test_lookup :
    [0x0A010203#32, 0x0A010204#32, 0x08080808#32, 0x00000000#32, 0xFFFFFFFF#32].map (lpm tableT2)
      = [.route 0x02020202#32, .route 0x03030303#32, .route 0x01010101#32, .route 0x01010101#32,
         .route 0x01010101#32] := by decide

/-- FT7, FT8, FT13, FT14. -/
theorem test_lookup_edges :
    [lpm [⟨0x0A010203#32, 8#6, 0x05050505#32⟩] 0x0AC80001#32, lpm [⟨0x0A000000#32, 8#6, 0#32⟩] 0x0A000001#32,
     lpm [⟨0x0A000004#32, 31#6, 0x07070707#32⟩] 0x0A000005#32, lpm [⟨0x0A000004#32, 31#6, 0x07070707#32⟩] 0x0A000006#32,
     lpm [⟨0x80000000#32, 1#6, 0x07070707#32⟩] 0x7FFFFFFF#32, lpm [⟨0x80000000#32, 1#6, 0x07070707#32⟩] 0x80000000#32]
      = [.route 0x05050505#32, .route 0#32, .route 0x07070707#32, .noRoute, .noRoute, .route 0x07070707#32] := by
  decide

/-! The engine's configuration, and classification. -/

/-- EC2. -/
theorem test_setLocalAddr :
    cfgAfter (exec (.setLocalAddr self) State.reset) = some ⟨true, 0x0A000002#32, [], false⟩ := by decide

/-- EC5. -/
theorem test_registerUl :
    (cfgAfter (exec .registerUl State.reset)).map Cfg.ulReg = some true ∧
    (cfgAfter (exec .registerUl host)).map Cfg.ulReg = some true := by decide

/-- EC1, EC3, EC4, EC8. -/
theorem test_classify :
    [State.reset, host, block true 0x0A000003#32 [] false, block true 0#32 [] false].map
        (fun s => answer (exec (.classify (hostIn 0x40 6 0xC4 0xBF)) s))
      = [some ⟨.ok, .dispatch .forward, none⟩, some ⟨.ok, .dispatch .deliver, none⟩,
         some ⟨.ok, .dispatch .forward, none⟩, some ⟨.ok, .dispatch .forward, none⟩] := by decide

/-- EC6. -/
theorem test_classify_short : answer (exec (.classify (hex [0x45])) host) = some ⟨.decodeError, .none, none⟩ := by
  decide

/-! Receive and send. -/

/-- RH1, RH3, RH5, RH6, and RH2 and RH4 with no upper layer. -/
theorem test_receive_host :
    [exec (.receive false (hostIn 0x40 6 0xC4 0xBF)) host, exec (.receive false (hostIn 0x40 0x11 0xC4 0xB4)) host,
     exec (.receive false (hostIn 0 6 4 0xC0)) host, exec (.receive false (hostIn 0x40 6 0x12 0x34)) host,
     exec (.receive false (hostIn 0x40 6 0xC4 0xBF)) router, exec (.receive false (hostIn 0x40 0x11 0xC4 0xB4)) router].map
        answer
      = [some ⟨.delivered, .none, some (.ulDeliver 0xAC100009#32 0x0A000002#32 (hex [1, 2, 3]))⟩,
         some ⟨.unsupportedProtocol, .none, none⟩,
         some ⟨.delivered, .none, some (.ulDeliver 0xAC100009#32 0x0A000002#32 (hex [1, 2, 3]))⟩,
         some ⟨.delivered, .none, some (.ulDeliver 0xAC100009#32 0x0A000002#32 (hex [1, 2, 3]))⟩,
         some ⟨.noConsumer, .none, none⟩, some ⟨.unsupportedProtocol, .none, none⟩] := by decide

/-- RR1 to RR6 and RR9. -/
theorem test_receive_router :
    [exec (.receive false (hin 5 0xE4 0x29)) router, exec (.receive false (hin 2 0xE7 0x29)) router,
     exec (.receive false (hin 1 0xE8 0x29)) router, exec (.receive false (hin 0 0xE9 0x29)) router,
     exec (.receive false (hin 255 0xEA 0x28)) router, exec (.receive true (hin 5 0xE4 0x29)) router,
     exec (.receive false (hin 5 0 0)) router].map answer
      = [some ⟨.forwarded, .none, some (.linkSend (hin 4 0xE5 0x29) 0x0A000001#32)⟩,
         some ⟨.forwarded, .none, some (.linkSend (hin 1 0xE8 0x29) 0x0A000001#32)⟩,
         some ⟨.ttlExpired, .none, none⟩, some ⟨.ttlExpired, .none, none⟩,
         some ⟨.forwarded, .none, some (.linkSend (hin 254 0xEB 0x28) 0x0A000001#32)⟩,
         some ⟨.forwarded, .none, some (.linkSend (hin 4 0 0) 0x0A000001#32)⟩,
         some ⟨.forwarded, .none, some (.linkSend (hin 4 0xE5 0x29) 0x0A000001#32)⟩] := by decide

/-- SD1, SD2, SD3, SD4, SD5. -/
theorem test_send :
    [(false, 0x0A000005#32, hello), (true, 0x0A000005#32, hello), (false, 0x0A000009#32, []),
     (false, 0x0A000002#32, hex [0x78]), (false, 0x08080808#32, hex [0x78])].map
        (fun p => answer (exec (.send p.1 p.2.1 p.2.2)
          (block true self [⟨0x0A000000#32, 24#6, 0x0A000001#32⟩] false)))
      = [some ⟨.ok, .none, some (.linkSend
          (hex [0x45, 0, 0, 0x19, 0, 0, 0, 0, 0x40, 6, 0x66, 0xD9, 0x0A, 0, 0, 2, 0x0A, 0, 0, 5] ++ hello)
          0x0A000001#32)⟩,
         some ⟨.ok, .none, some (.linkSend
          (hex [0x45, 0, 0, 0x19, 0, 0, 0, 0, 0x40, 6, 0, 0, 0x0A, 0, 0, 2, 0x0A, 0, 0, 5] ++ hello)
          0x0A000001#32)⟩,
         some ⟨.ok, .none, some (.linkSend
          (hex [0x45, 0, 0, 0x14, 0, 0, 0, 0, 0x40, 6, 0x66, 0xDA, 0x0A, 0, 0, 2, 0x0A, 0, 0, 9]) 0x0A000001#32)⟩,
         some ⟨.ok, .none, some (.linkSend
          (hex [0x45, 0, 0, 0x15, 0, 0, 0, 0, 0x40, 6, 0x66, 0xE0, 0x0A, 0, 0, 2, 0x0A, 0, 0, 2, 0x78])
          0x0A000001#32)⟩,
         some ⟨.noRoute, .none, none⟩] := by decide

/-- SD8, SD9. -/
theorem test_send_no_local_address :
    [0x0A000005#32, 0x08080808#32].map (fun dst => answer (exec (.send false dst (hex [0x78]))
        (block false 0#32 [⟨0x0A000000#32, 24#6, 0x0A000001#32⟩] false)))
      = [some ⟨.noLocalAddress, .none, none⟩, some ⟨.noRoute, .none, none⟩] := by decide

/-! Witnesses: values that meet the hypotheses of each statement that has some, clause by clause. -/

/-- A datagram of the greatest length (DC9), all zero after its first byte. -/
def longest : Bytes := 0x45#8 :: List.replicate 65534 0#8

/-- 20 bytes, all zero after the first (DC2), with a TTL. -/
def shortest (ttl : Nat) : Bytes := hex [0x45, 0, 0, 0, 0, 0, 0, 0, ttl, 0, 0, 0, 0, 0, 0, 0, 0, 0, 0, 0]

theorem witness_DecodeOfEncodeIsTheCommand :
    Instr.wf (.receive true (hin 5 0 0)) = true ∧ Instr.wf (.setRoutes tableT2) = true ∧
    Instr.wf (.decode (List.replicate (2 ^ 32 - 1) 0#8)) = true :=
  ⟨by decide, by decide, short_enough (by rw [List.length_replicate]; omega)⟩

theorem witness_DecodedBytesAreTheListing :
    decode (hex [0x11, 1, 2, 3, 4, 0x21]) = .command (.lookup 0x01020304#32) [0x21#8] := by decide

theorem witness_StepRunsTheDecodedCommand :
    decode (State.reset.withInput (hex [0x21, 0x11])).input = .command .registerUl [0x11#8] := by decide

theorem witness_StepsRunTheCommandsInOrder :
    ∀ i ∈ [Instr.setLocalAddr self, .setRoutes oneRoute, .receive false (hin 5 0xE4 0x29)], i.wf = true := by decide

theorem witness_IllegalOpcodeOnlyReturnsItsStatus : ∀ b ∈ [0x00#8, 0x04#8, 0x0F#8, 0x12#8, 0x33#8, 0xFF#8],
    b ∉ [0x01#8, 0x02#8, 0x03#8, 0x10#8, 0x11#8, 0x20#8, 0x21#8, 0x30#8, 0x31#8, 0x32#8] := by decide

theorem witness_ListingsHaveTheirLayouts :
    (List.replicate (2 ^ 32 - 1) 0#8).length < 2 ^ 32 ∧ tableT2.length < 2 ^ 32 ∧ 3 < tableT2.length ∧
    (Instr.decode hello = .decode hello ∧ 0x01#8 = 0x01#8) ∧ (Instr.lookup self = .lookup self ∧ 0x11#8 = 0x11#8) :=
  ⟨by rw [List.length_replicate]; omega, by decide, by decide, ⟨rfl, rfl⟩, ⟨rfl, rfl⟩⟩

theorem witness_MalformedListingIsNotACommand :
    (2 ≤ (0x02#8).toNat ∧ 0x31#8 ∈ [0x31#8, 0x32#8]) ∧ 64 ≤ (0x40#8).toNat ∧ 4 ≤ (0x04#8).toNat ∧ 8 ≤ (0x08#8).toNat ∧
    32 ≤ (0x20#8).toNat ∧ ([] : List RouteEntry).length < (1#32).toNat ∧ oneRoute.length < (2#32).toNat := by decide

theorem witness_IdleStepChangesNothing : State.reset.input = [] := rfl

theorem witness_ResetMeetsTheTableInvariant : (⟨1, 0#8⟩ : Config).wf := by decide

theorem witness_EveryStepKeepsTheTableInvariant :
    (⟨1, 6#8⟩ : Config).wf ∧ withT2.Inv ∧
    (∃ s', step (withT2.withInput (encode (.setRoutes oneRoute))) = .next s' ∧ s'.cfg.routes = oneRoute) ∧
    4 ≤ State.reset.config.routeCapacity ∧ RouteLegal ⟨0#32, 32#6, 0#32⟩ :=
  ⟨by decide, by decide, ⟨_, rfl, rfl⟩, by decide, by decide⟩

theorem witness_NoStepChangesTheParameters :
    ∃ s', step (State.reset.withInput [0x21#8]) = .next s' ∧ s'.cfg.ulReg = true := ⟨_, rfl, rfl⟩

theorem witness_EveryStepKeepsOutputsWellFormed :
    ((router.withInput (encode (.receive false (hin 5 0xE4 0x29)))).respond
      ⟨.delivered, .none, some (.ulDeliver 0#32 0#32 [])⟩).OutputsOk ∧
    ∃ s', step ((router.withInput (encode (.receive false (hin 5 0xE4 0x29)))).respond
      ⟨.delivered, .none, some (.ulDeliver 0#32 0#32 [])⟩) = .next s' := by
  refine ⟨fun r hr => ?_, _, rfl⟩
  simp only [respond_out, withInput_out, show router.out = [] from rfl, List.nil_append, List.mem_singleton] at hr
  subst hr
  exact ⟨rfl, by decide⟩

theorem witness_UnconfiguredBlockOnlyDrops :
    DecodeOk (shortest 1) ∧ wireByte (shortest 1) 8 ≤ 1 ∧ DecodeOk (shortest 2) ∧ 2 ≤ wireByte (shortest 2) 8 := by
  decide

theorem longest_ok : DecodeOk longest :=
  have h : longest.length = 65535 := by rw [longest, List.length_cons, List.length_replicate]
  ⟨by rw [h]; decide, h.le, rfl⟩

theorem witness_DecodeReturnsTheHeaderFields :
    (20 ≤ (shortest 0).length ∧ (shortest 0).length ≤ 65535 ∧ wireByte (shortest 0) 0 = 0x45) ∧
    (20 ≤ longest.length ∧ longest.length ≤ 65535 ∧ wireByte longest 0 = 0x45) :=
  ⟨by decide, longest_ok.1, longest_ok.2.1, rfl⟩

/-- DC4, DC8, DC5, and the two ends of what is accepted. -/
theorem witness_DecodeErrorExactlyOnMalformedDatagrams :
    ((shortest 0).take 19).length < 20 ∧ 65535 < (0x45#8 :: List.replicate 65535 0#8).length ∧
    (hex (0x46 :: List.replicate 19 0)).head? ≠ some 0x45#8 ∧ ([] : Bytes).head? ≠ some 0x45#8 ∧
    (¬ ((shortest 0).length < 20 ∨ 65535 < (shortest 0).length ∨ (shortest 0).head? ≠ some 0x45#8)) ∧
    ∀ B, Instr.registerUl ≠ .decode B ∧ Instr.registerUl ≠ .classify B ∧ ∀ skip, Instr.registerUl ≠ .receive skip B := by
  refine ⟨by decide, ?_, by decide, by decide, by decide, by simp⟩
  rw [List.length_cons, List.length_replicate]
  decide

theorem witness_DecodeOfEncodeReturnsTheFields :
    ([] : Bytes).length ≤ 65535 - 20 ∧ (List.replicate 65515 0#8).length ≤ 65535 - 20 :=
  ⟨by decide, by rw [List.length_replicate]⟩

/-- CK1, and twenty zero bytes. -/
theorem witness_FilledInChecksumVerifies :
    ∃ H : Header, checksum16 H = 0x66D9#16 ∧ H[10] = 0#8 ∧ H[11] = 0#8 :=
  ⟨header [0x45, 0, 0, 0x19, 0, 0, 0, 0, 0x40, 6, 0, 0, 0x0A, 0, 0, 2, 0x0A, 0, 0, 5] rfl, by decide⟩

theorem witness_CodecCommandsArePure : (∃ B, Instr.decode hello = .decode B) := ⟨_, rfl⟩

theorem witness_MaskHasThePrefixBits : (0 ≤ 32 ∧ 0 < 32) ∧ (32 ≤ 32 ∧ 31 < 32) := by decide

theorem witness_ContainsComparesThePrefixBits :
    RouteLegal ⟨0#32, 0#6, 0#32⟩ ∧ RouteLegal ⟨0x0A010203#32, 32#6, 0#32⟩ ∧
    contains ⟨0x0A010203#32, 32#6, 0#32⟩ 0x0A010203#32 = true ∧
    contains ⟨0x0A010203#32, 32#6, 0#32⟩ 0x0A010202#32 = false := by decide

/-- FT9, FT11 and T2 itself, at capacity 4. -/
theorem witness_SetRoutesReplacesOrRefusesTheWholeList :
    withT2.config.routeCapacity < (tableT2 ++ oneRoute).length ∧
    ([⟨0#32, 32#6, 0#32⟩, ⟨0#32, 33#6, 0#32⟩] : List RouteEntry).length ≤ withT2.config.routeCapacity ∧
    32 < (33#6 : BitVec 6).toNat ∧ (32#6 : BitVec 6).toNat ≤ 32 ∧
    tableT2.length ≤ withT2.config.routeCapacity ∧ ∀ e ∈ tableT2, e.plen.toNat ≤ 32 := by decide

/-- FT2: the earlier of two /16 entries; and FT6. -/
theorem witness_LookupFindsTheFirstLongestPrefix :
    (∀ e ∈ withT2.cfg.routes, RouteLegal e) ∧ (∃ e ∈ withT2.cfg.routes, inPrefix e 0x0A010204#32) ∧
    bestAt withT2.cfg.routes 0x0A010204#32 2 ∧
    withT2.cfg.routes[2]? = some ⟨0x0A010000#32, 16#6, 0x03030303#32⟩ ∧
    ∀ e ∈ oneRoute, ¬ inPrefix e 0x01020304#32 :=
  ⟨by decide, ⟨⟨0#32, 0#6, 0x01010101#32⟩, by decide⟩, bestAt_of_check _ rfl (by decide) (by decide), rfl, by decide⟩

theorem witness_ClassifyComparesTheDestination :
    DecodeOk (hostIn 0x40 6 0 0) ∧ (host.cfg.localValid = true ∧ wireAddr (hostIn 0x40 6 0 0) 16 = host.cfg.localAddr.toNat) ∧
    DecodeOk (hin 5 0 0) ∧ ¬ (host.cfg.localValid = true ∧ wireAddr (hin 5 0 0) 16 = host.cfg.localAddr.toNat) := by decide

theorem witness_ReceiveDeliversToTheUpperLayer :
    DecodeOk (hostIn 0x40 6 0 0) ∧ host.cfg.localValid = true ∧
    wireAddr (hostIn 0x40 6 0 0) 16 = host.cfg.localAddr.toNat ∧
    wireByte (hostIn 0x40 6 0 0) 9 = host.config.supportedProto.toNat ∧ host.cfg.ulReg = true := by decide

theorem witness_ReceiveDropsWithoutAConsumer :
    DecodeOk (hostIn 0x40 6 0 0) ∧ DecodeOk (hostIn 0x40 7 0 0) ∧ router.cfg.localValid = true ∧
    wireAddr (hostIn 0x40 6 0 0) 16 = router.cfg.localAddr.toNat ∧
    wireAddr (hostIn 0x40 7 0 0) 16 = router.cfg.localAddr.toNat ∧
    wireByte (hostIn 0x40 7 0 0) 9 ≠ router.config.supportedProto.toNat ∧
    wireByte (hostIn 0x40 6 0 0) 9 = router.config.supportedProto.toNat ∧ router.cfg.ulReg = false := by decide

/-- RH1 beside a datagram of TTL 0, another checksum and another total length. -/
theorem witness_HostModeIgnoresTtlAndChecksum :
    DecodeOk (hostIn 0x40 6 0xC4 0xBF) ∧ host.cfg.localValid = true ∧
    wireAddr (hostIn 0x40 6 0xC4 0xBF) 16 = host.cfg.localAddr.toNat ∧
    agreeExcept [2, 3, 8, 10, 11] (hostIn 0x40 6 0xC4 0xBF) (((hostIn 0 6 0x12 0x34).set 2 0xFF#8).set 3 0xFF#8) :=
  ⟨by decide, rfl, by decide, agreeExcept_of_check rfl (by decide)⟩

theorem witness_ReceiveDropsExpiredTtl :
    DecodeOk (hin 1 0 0) ∧ DecodeOk (hin 0 0 0) ∧
    ¬ (router.cfg.localValid = true ∧ wireAddr (hin 1 0 0) 16 = router.cfg.localAddr.toNat) ∧
    wireByte (hin 1 0 0) 8 ≤ 1 ∧ wireByte (hin 0 0 0) 8 ≤ 1 := by decide

theorem witness_ReceiveDropsWithoutARoute :
    DecodeOk (shortest 2) ∧ ¬ (router.cfg.localValid = true ∧ wireAddr (shortest 2) 16 = router.cfg.localAddr.toNat) ∧
    2 ≤ wireByte (shortest 2) 8 ∧ (∀ e ∈ router.cfg.routes, RouteLegal e) ∧
    ∀ (e : RouteEntry) (dst : Addr), e ∈ router.cfg.routes → dst.toNat = wireAddr (shortest 2) 16 → ¬ inPrefix e dst := by
  refine ⟨by decide, by decide, by decide, by decide, fun e dst he hd => ?_⟩
  have h0 : dst.toNat = 0 := hd.trans (by decide)
  simp only [show router.cfg.routes = oneRoute from rfl, oneRoute, List.mem_singleton] at he
  subst he
  rw [inPrefix, h0]
  decide

/-- RR2, the lowest TTL that is forwarded. -/
theorem witness_ForwardChangesOnlyTtlLengthAndChecksum :
    DecodeOk (hin 2 0xE7 0x29) ∧
    ¬ (router.cfg.localValid = true ∧ wireAddr (hin 2 0xE7 0x29) 16 = router.cfg.localAddr.toNat) ∧
    2 ≤ wireByte (hin 2 0xE7 0x29) 8 ∧ (∀ e ∈ router.cfg.routes, RouteLegal e) ∧
    (0xC0A80709#32).toNat = wireAddr (hin 2 0xE7 0x29) 16 ∧ bestAt router.cfg.routes 0xC0A80709#32 0 ∧
    router.cfg.routes[0]? = some ⟨0xC0A80000#32, 16#6, 0x0A000001#32⟩ :=
  ⟨by decide, by decide, by decide, by decide, by decide, bestAt_of_check _ rfl (by decide) (by decide), rfl⟩

theorem witness_RouterModeIgnoresProtocolAndRegistration :
    DecodeOk (hin 5 0 0) ∧ ¬ (router.cfg.localValid = true ∧ wireAddr (hin 5 0 0) 16 = router.cfg.localAddr.toNat) ∧
    agreeExcept [9] (hin 5 0 0) ((hin 5 0 0).set 9 0x11#8) ∧ agreeExcept [9] (hin 5 0 0) (hin 5 0 0) :=
  ⟨by decide, by decide, agreeExcept_of_check rfl (by decide), agreeExcept_of_check rfl (by decide)⟩

theorem witness_InboundChecksumAndLengthAreNeverRead :
    agreeExcept [2, 3, 10, 11] (hin 5 0xE4 0x29) ((hin 5 0 0).set 3 0x30#8) ∧ agreeExcept [2, 3, 10, 11] [] [] :=
  ⟨agreeExcept_of_check rfl (by decide), agreeExcept_of_check rfl (by decide)⟩

theorem witness_FragmentsAreWholeDatagrams :
    DecodeOk (hin 5 0 0) ∧ agreeExcept [6, 7] (hin 5 0 0) (((hin 5 0 0).set 6 0x3F#8).set 7 0xFF#8) :=
  ⟨by decide, agreeExcept_of_check rfl (by decide)⟩

/-- S7's datagram, forwarded twice. -/
theorem witness_ForwardingChainsEnd :
    [hin 5 0xE4 0x29, hin 4 0xE5 0x29, hin 3 0xE6 0x29].IsChain forwardsTo :=
  .cons_cons ⟨router, false, 0x0A000001#32, rfl⟩
    (.cons_cons ⟨router, false, 0x0A000001#32, rfl⟩ (.singleton _))

/-- SD6, at the greatest payload. -/
theorem witness_SendOriginatesADatagram :
    (∀ e ∈ router.cfg.routes, RouteLegal e) ∧ bestAt router.cfg.routes 0xC0A80709#32 0 ∧
    router.cfg.routes[0]? = some ⟨0xC0A80000#32, 16#6, 0x0A000001#32⟩ ∧ router.cfg.localValid = true ∧
    (List.replicate 65515 0#8).length ≤ 65515 :=
  ⟨by decide, bestAt_of_check _ rfl (by decide) (by decide), rfl, rfl, by rw [List.length_replicate]⟩

/-- SD5, SD8, SD7. -/
theorem witness_SendFailsInOrder :
    (∀ e ∈ router.cfg.routes, RouteLegal e) ∧ (∀ e ∈ router.cfg.routes, ¬ inPrefix e 0x08080808#32) ∧
    (∃ e ∈ router.cfg.routes, inPrefix e 0xC0A80709#32) ∧ (block false 0#32 oneRoute false).cfg.localValid = false ∧
    router.cfg.localValid = true ∧ 65515 < (List.replicate 65516 0#8).length :=
  ⟨by decide, by decide, ⟨⟨0xC0A80000#32, 16#6, 0x0A000001#32⟩, by decide⟩, rfl, rfl,
    by rw [List.length_replicate]; decide⟩

/-- T2 routes every address, the local one too. -/
theorem witness_SendNeverLoopsBack :
    (∀ e ∈ tableT2, RouteLegal e) ∧ bestAt tableT2 (block true self tableT2 true).cfg.localAddr 0 ∧
    tableT2[0]? = some ⟨0#32, 0#6, 0x01010101#32⟩ ∧ (block true self tableT2 true).cfg.localValid = true ∧
    hello.length ≤ 65515 :=
  ⟨by decide, bestAt_of_check _ rfl (by decide) (by decide), rfl, rfl, by decide⟩

theorem witness_EmittedHeadersSumToAllOnes :
    exec (.receive false (hin 5 0 0)) router =
      .next (router.respond ⟨.forwarded, .none, some (.linkSend (hin 4 0xE5 0x29) 0x0A000001#32)⟩) ∧
    ∃ out, exec (.send false 0xC0A80709#32 hello) router =
      .next (router.respond ⟨.ok, .none, some (.linkSend out 0x0A000001#32)⟩) := ⟨rfl, _, rfl⟩

theorem witness_CommandsReadOnlyTheirOwnFields :
    host.config = router.config ∧ readsAgree (.classify hello) host.cfg router.cfg ∧
    readsAgree (.lookup self) withT2.cfg (block true self tableT2 true).cfg ∧
    readsAgree (.send false self hello) router.cfg (block true self oneRoute true).cfg ∧
    readsAgree (.receive false hello) router.cfg router.cfg ∧ readsAgree (.setRoutes []) host.cfg withT2.cfg :=
  ⟨rfl, ⟨rfl, rfl⟩, rfl, ⟨rfl, rfl, rfl⟩, rfl, trivial⟩

theorem witness_CommandsReturnTheirOwnResults :
    ∃ s', exec (.lookup 0x0A010204#32) withT2 = .next s' ∧
      s'.out = withT2.out ++ [⟨.ok, .nextHop 0x03030303#32, none⟩] := ⟨_, rfl, rfl⟩

theorem witness_ErrorsWriteAndEmitNothing :
    ∃ s', exec (.setRoutes (tableT2 ++ oneRoute)) withT2 = .next s' ∧
      s'.out = withT2.out ++ [⟨.configError, .configInfo 4 .capacity, none⟩] ∧ Status.success .configError = false :=
  ⟨_, rfl, rfl, rfl⟩

theorem witness_EventsComeOnlyFromTheDatagramPath :
    (∃ s', exec (.receive false (hin 5 0 0)) router = .next s' ∧
      s'.out = router.out ++ [⟨.forwarded, .none, some (.linkSend (hin 4 0xE5 0x29) 0x0A000001#32)⟩]) ∧
    ∃ s', exec (.receive true (hostIn 0 6 0 0)) host = .next s' ∧
      s'.out = host.out ++ [⟨.delivered, .none, some (.ulDeliver 0xAC100009#32 self (hex [1, 2, 3]))⟩] :=
  ⟨⟨_, rfl, rfl⟩, ⟨_, rfl, rfl⟩⟩

/-- One command of each of the three clauses, twice. -/
theorem witness_RepeatingACommand :
    (∃ s1 s2, exec (.classify (hin 5 0 0)) router = .next s1 ∧ exec (.classify (hin 5 0 0)) s1 = .next s2) ∧
    (∃ s1 s2, exec (.setRoutes tableT2) router = .next s1 ∧ exec (.setRoutes tableT2) s1 = .next s2) ∧
    (∃ s1 s2, exec (.receive false (hin 5 0 0)) router = .next s1 ∧ exec (.receive false (hin 5 0 0)) s1 = .next s2) :=
  ⟨⟨_, _, rfl, rfl⟩, ⟨_, _, rfl, rfl⟩, ⟨_, _, rfl, rfl⟩⟩

theorem witness_ConfigurationIsSeenByTheNextCommand :
    (tableT2.length ≤ State.reset.config.routeCapacity ∧ (∀ e ∈ tableT2, RouteLegal e) ∧
      bestAt tableT2 0x0A010203#32 1 ∧ tableT2[1]? = some ⟨0x0A010203#32, 32#6, 0x02020202#32⟩ ∧
      ∃ s', exec (.setRoutes tableT2) State.reset = .next s') ∧
    (DecodeOk (hostIn 64 6 0 0) ∧ wireAddr (hostIn 64 6 0 0) 16 = self.toNat ∧
      ∃ s', exec (.setLocalAddr self) State.reset = .next s') ∧
    (router.cfg.localValid = true ∧ wireAddr (hostIn 64 6 0 0) 16 = router.cfg.localAddr.toNat ∧
      wireByte (hostIn 64 6 0 0) 9 = router.config.supportedProto.toNat ∧
      ∃ s', exec .registerUl router = .next s') :=
  ⟨⟨by decide, by decide, bestAt_of_check _ rfl (by decide) (by decide), rfl, _, rfl⟩,
    ⟨by decide, by decide, _, rfl⟩, ⟨rfl, by decide, by decide, _, rfl⟩⟩

theorem witness_UnassignedLocalAddrIsUnobservable : State.reset.cfg.localValid = false := rfl

theorem witness_StatusCodesAreThoseOfTheTable : Status.code .noRoute = Status.code .noRoute := rfl

end Sys2Proof.Tests
end

section
/-! PROOFS. What an operation reads, said once for all commands: two blocks that agree on it respond alike and write alike (10_state.md R25, R33). -/

namespace Sys2Proof.Machine

/-! Configurations that an operation cannot tell apart. -/

/-- The same local address or none in both: `LOCAL_ADDR` counts only once it is assigned (R25). -/
def Cfg.SameLocal (c d : Cfg) : Prop :=
  c.localValid = d.localValid ∧ (c.localValid = true → c.localAddr = d.localAddr)

/-- Equal but for a `LOCAL_ADDR` that is not assigned (R25). -/
def Cfg.SameView (c d : Cfg) : Prop :=
  c.SameLocal d ∧ c.routes = d.routes ∧ c.ulReg = d.ulReg

/-- `readsAgree`, weakened by R25: an unassigned `LOCAL_ADDR` need not agree. -/
def ReadsAlike (i : Instr) (c d : Cfg) : Prop :=
  match i with
  | .decode _ | .encode _ | .checksum _ | .setRoutes _ | .setLocalAddr _ | .registerUl => True
  | .lookup _ => c.routes = d.routes
  | .classify _ => c.SameLocal d
  | .receive _ _ => c.SameView d
  | .send _ _ _ => c.SameLocal d ∧ c.routes = d.routes

theorem Cfg.sameView_refl (c : Cfg) : c.SameView c := ⟨⟨rfl, fun _ => rfl⟩, rfl, rfl⟩

theorem Cfg.sameView_localAddr {c : Cfg} (a : Addr) (hv : c.localValid = false) :
    c.SameView { c with localAddr := a } :=
  ⟨⟨rfl, fun h => by rw [hv] at h; cases h⟩, rfl, rfl⟩

theorem Cfg.SameView.readsAlike {c d : Cfg} (h : c.SameView d) (i : Instr) : ReadsAlike i c d := by
  obtain ⟨hl, hr, hu⟩ := h
  cases i with
  | lookup a => exact hr
  | classify B => exact hl
  | receive skip B => exact ⟨hl, hr, hu⟩
  | send skip dst P => exact ⟨hl, hr⟩
  | _ => trivial

theorem readsAlike_of_readsAgree {i : Instr} {c d : Cfg} (h : readsAgree i c d) : ReadsAlike i c d := by
  cases i with
  | lookup a => exact h
  | classify B =>
    obtain ⟨hv, ha⟩ := h
    exact ⟨hv, fun _ => ha⟩
  | receive skip B =>
    have hcd : c = d := h
    exact hcd ▸ c.sameView_refl
  | send skip dst P =>
    obtain ⟨hv, ha, hr⟩ := h
    exact ⟨⟨hv, fun _ => ha⟩, hr⟩
  | _ => trivial

/-- An address is local to both or to neither (R133). -/
theorem Cfg.SameLocal.local_iff {c d : Cfg} (h : c.SameLocal d) (n : Nat) :
    (c.localValid = true ∧ n = c.localAddr.toNat) ↔ (d.localValid = true ∧ n = d.localAddr.toNat) := by
  obtain ⟨hv, ha⟩ := h
  rw [← hv]
  exact and_congr_right fun hc => by rw [ha hc]

theorem Cfg.SameLocal.classify_eq {c d : Cfg} (h : c.SameLocal d) (a : Addr) : classify c a = classify d a := by
  by_cases hl : c.localValid = true ∧ a.toNat = c.localAddr.toNat
  · rw [classify_deliver hl, classify_deliver ((h.local_iff _).mp hl)]
  · rw [classify_forward hl, classify_forward (mt (h.local_iff _).mpr hl)]

/-! Operations that only respond. -/

/-- The operation writes nothing and gives one response, the same in both states. -/
def RespondAlike (op : State → Answer) (s t : State) : Prop :=
  ∃ r, op s = .next (s.respond r) ∧ op t = .next (t.respond r)

theorem finish_respondAlike (st : Status) (res : Result) (ev : Option Event) (s t : State) :
    RespondAlike (finish st res ev) s t := ⟨_, rfl, rfl⟩

theorem raise_respondAlike (st : Status) (info : Result) (s t : State) :
    RespondAlike (raise st info) s t := ⟨_, rfl, rfl⟩

theorem execDecode_respondAlike (B : Bytes) (s t : State) : RespondAlike (execDecode B) s t := by
  by_cases h : DecodeOk B
  · exact ⟨_, execDecode_ok h s, execDecode_ok h t⟩
  · exact ⟨_, execDecode_malformed h s, execDecode_malformed h t⟩

theorem execLookup_respondAlike (a : Addr) {s t : State} (hr : s.cfg.routes = t.cfg.routes) :
    RespondAlike (execLookup a) s t := by
  cases hl : lpm s.cfg.routes a with
  | route nh => exact ⟨_, execLookup_route hl, execLookup_route (hr ▸ hl)⟩
  | noRoute => exact ⟨_, execLookup_noRoute hl, execLookup_noRoute (hr ▸ hl)⟩

theorem execClassify_respondAlike (B : Bytes) {s t : State} (hl : s.cfg.SameLocal t.cfg) :
    RespondAlike (execClassify B) s t := by
  by_cases h : DecodeOk B
  · exact ⟨_, execClassify_ok h s, hl.classify_eq _ ▸ execClassify_ok h t⟩
  · exact ⟨_, execClassify_malformed h s, execClassify_malformed h t⟩

/-- Host mode reads the supported protocol and `UL_REG` (R145 to R147). -/
theorem receiveLocal_respondAlike (d : DecodedFields) {s t : State} (hf : s.config = t.config)
    (hu : s.cfg.ulReg = t.cfg.ulReg) : RespondAlike (receiveLocal d) s t := by
  unfold RespondAlike receiveLocal
  rw [hf, hu]
  split
  · exact raise_respondAlike ..
  · split
    · exact raise_respondAlike ..
    · exact finish_respondAlike ..

/-- Router mode reads the table (R151 to R156). -/
theorem receiveRemote_respondAlike (skip : Bool) (d : DecodedFields) {s t : State}
    (hr : s.cfg.routes = t.cfg.routes) : RespondAlike (receiveRemote skip d) s t := by
  simp only [RespondAlike, receiveRemote, hr]
  split
  · exact raise_respondAlike ..
  · split
    · exact raise_respondAlike ..
    · exact finish_respondAlike ..

theorem execReceive_respondAlike (skip : Bool) (B : Bytes) {s t : State} (hf : s.config = t.config)
    (hv : s.cfg.SameView t.cfg) : RespondAlike (execReceive skip B) s t := by
  obtain ⟨hl, hr, hu⟩ := hv
  by_cases h : DecodeOk B
  · by_cases hs : s.cfg.localValid = true ∧ wireAddr B 16 = s.cfg.localAddr.toNat
    · have ht := (hl.local_iff _).mp hs
      rw [RespondAlike, execReceive_local h hs, execReceive_local h ht]
      exact receiveLocal_respondAlike _ hf hu
    · have ht := mt (hl.local_iff _).mpr hs
      rw [RespondAlike, execReceive_remote h hs, execReceive_remote h ht]
      exact receiveRemote_respondAlike skip _ hr
  · exact ⟨_, execReceive_malformed h s, execReceive_malformed h t⟩

/-- `SEND` reads the local address only behind the test that one is assigned (R161). -/
theorem execSend_respondAlike (skip : Bool) (dst : Addr) (P : Bytes) {s t : State} (hf : s.config = t.config)
    (hl : s.cfg.SameLocal t.cfg) (hr : s.cfg.routes = t.cfg.routes) :
    RespondAlike (execSend skip dst P) s t := by
  obtain ⟨hv, ha⟩ := hl
  simp only [RespondAlike, execSend, hf, hr, ← hv]
  split
  · exact raise_respondAlike ..
  · split
    · exact raise_respondAlike ..
    · next hassigned =>
      rw [ha (by simpa using hassigned)]
      split
      · exact raise_respondAlike ..
      · exact finish_respondAlike ..

/-! Writes of `CFG`. -/

/-- What one operation may do to `CFG` (R33). -/
inductive CfgWrite where
  | keep
  | table (E : List RouteEntry)
  | localAddr (a : Addr)
  | upperLayer

/-- `CFG` after the write. -/
def CfgWrite.apply (w : CfgWrite) (c : Cfg) : Cfg :=
  match w with
  | .keep => c
  | .table E => { c with routes := E }
  | .localAddr a => { c with localValid := true, localAddr := a }
  | .upperLayer => { c with ulReg := true }

/-- The command may do this write, under these parameters (R33, R113, R131, R132). -/
def CfgWrite.IssuedBy (w : CfgWrite) (i : Instr) (p : Config) : Prop :=
  match w with
  | .keep => True
  | .table E => i = .setRoutes E ∧ E.length ≤ p.routeCapacity ∧ ∀ e ∈ E, RouteLegal e
  | .localAddr a => i = .setLocalAddr a
  | .upperLayer => i = .registerUl

/-- A field is left alone, or gets a value that does not depend on what `CFG` held. -/
theorem CfgWrite.apply_leaves_or_sets (w : CfgWrite) (c d : Cfg) :
    ((w.apply c).routes = c.routes ∧ (w.apply d).routes = d.routes ∨ (w.apply c).routes = (w.apply d).routes) ∧
    ((w.apply c).localValid = c.localValid ∧ (w.apply c).localAddr = c.localAddr ∧
        (w.apply d).localValid = d.localValid ∧ (w.apply d).localAddr = d.localAddr ∨
      (w.apply c).localValid = (w.apply d).localValid ∧ (w.apply c).localAddr = (w.apply d).localAddr) ∧
    ((w.apply c).ulReg = c.ulReg ∧ (w.apply d).ulReg = d.ulReg ∨ (w.apply c).ulReg = (w.apply d).ulReg) := by
  cases w with
  | keep => exact ⟨.inl ⟨rfl, rfl⟩, .inl ⟨rfl, rfl, rfl, rfl⟩, .inl ⟨rfl, rfl⟩⟩
  | table E => exact ⟨.inr rfl, .inl ⟨rfl, rfl, rfl, rfl⟩, .inl ⟨rfl, rfl⟩⟩
  | localAddr a => exact ⟨.inl ⟨rfl, rfl⟩, .inr ⟨rfl, rfl⟩, .inl ⟨rfl, rfl⟩⟩
  | upperLayer => exact ⟨.inl ⟨rfl, rfl⟩, .inl ⟨rfl, rfl, rfl, rfl⟩, .inr rfl⟩

/-- A write to a `CFG` without a local address leaves `LOCAL_ADDR` unassigned, or assigns it in the same way
whatever it held (R24, R131). -/
theorem CfgWrite.apply_unassigned (w : CfgWrite) {c : Cfg} (a : Addr) (hv : c.localValid = false) :
    ∃ b, w.apply { c with localAddr := a } = { w.apply c with localAddr := b } ∧
      ((w.apply c).localValid = true → b = (w.apply c).localAddr) := by
  cases w with
  | localAddr b => exact ⟨b, rfl, fun _ => rfl⟩
  | keep => exact ⟨a, rfl, fun h => by cases hv.symm.trans h⟩
  | table E => exact ⟨a, rfl, fun h => by cases hv.symm.trans h⟩
  | upperLayer => exact ⟨a, rfl, fun h => by cases hv.symm.trans h⟩

section Frame
variable {w : CfgWrite} {i : Instr} {p : Config}

theorem CfgWrite.IssuedBy.routes_eq (hw : w.IssuedBy i p) (hi : ∀ E, i ≠ .setRoutes E) (c : Cfg) :
    (w.apply c).routes = c.routes := by
  cases w with
  | table E => exact absurd hw.1 (hi E)
  | _ => rfl

theorem CfgWrite.IssuedBy.local_eq (hw : w.IssuedBy i p) (hi : ∀ a, i ≠ .setLocalAddr a) (c : Cfg) :
    (w.apply c).localValid = c.localValid ∧ (w.apply c).localAddr = c.localAddr := by
  cases w with
  | localAddr a => exact absurd hw (hi a)
  | _ => exact ⟨rfl, rfl⟩

theorem CfgWrite.IssuedBy.ulReg_eq (hw : w.IssuedBy i p) (hi : i ≠ .registerUl) (c : Cfg) :
    (w.apply c).ulReg = c.ulReg := by
  cases w with
  | upperLayer => exact absurd hw hi
  | _ => rfl

/-- A table that is written is within the capacity and legal (R28). -/
theorem CfgWrite.IssuedBy.table_ok (hw : w.IssuedBy i p) {c : Cfg}
    (hc : c.routeCount ≤ p.routeCapacity ∧ ∀ e ∈ c.routes, RouteLegal e) :
    (w.apply c).routeCount ≤ p.routeCapacity ∧ ∀ e ∈ (w.apply c).routes, RouteLegal e := by
  cases w with
  | table E => exact hw.2
  | _ => exact hc

end Frame

/-! Every command. -/

/-- The command does one and the same write, one that it may do, and gives one and the same response. -/
def ActsAlike (i : Instr) (s t : State) : Prop :=
  ∃ (w : CfgWrite) (r : Response), w.IssuedBy i s.config ∧
    exec i s = .next ((s.withCfg (w.apply s.cfg)).respond r) ∧
    exec i t = .next ((t.withCfg (w.apply t.cfg)).respond r)

theorem RespondAlike.actsAlike {i : Instr} {s t : State} (h : RespondAlike (exec i) s t) : ActsAlike i s t := by
  obtain ⟨r, hs, ht⟩ := h
  exact ⟨.keep, r, trivial, hs, ht⟩

/-- A command acts alike in two blocks of the same parameters that agree on what it reads (R33). -/
theorem exec_actsAlike {i : Instr} {s t : State} (hf : s.config = t.config) (hr : ReadsAlike i s.cfg t.cfg) :
    ActsAlike i s t := by
  cases i with
  | decode B => exact RespondAlike.actsAlike (execDecode_respondAlike B s t)
  | encode f => exact RespondAlike.actsAlike (finish_respondAlike ..)
  | checksum H => exact RespondAlike.actsAlike (finish_respondAlike ..)
  | setRoutes E =>
    cases he : routesError s.config.routeCapacity E with
    | none =>
      exact ⟨.table E, _, ⟨rfl, routesError_none.mp he⟩, execSetRoutes_accepted he,
        execSetRoutes_accepted (hf ▸ he)⟩
    | some x => exact RespondAlike.actsAlike ⟨_, execSetRoutes_refused he, execSetRoutes_refused (hf ▸ he)⟩
  | lookup a => exact RespondAlike.actsAlike (execLookup_respondAlike a hr)
  | setLocalAddr a => exact ⟨.localAddr a, _, rfl, rfl, rfl⟩
  | registerUl => exact ⟨.upperLayer, _, rfl, rfl, rfl⟩
  | classify B => exact RespondAlike.actsAlike (execClassify_respondAlike B hr)
  | receive skip B => exact RespondAlike.actsAlike (execReceive_respondAlike skip B hf hr)
  | send skip dst P =>
    obtain ⟨hl, hr⟩ := hr
    exact RespondAlike.actsAlike (execSend_respondAlike skip dst P hf hl hr)

/-- Every command, in every state: one write that it may do, and one response. -/
theorem exec_writes (i : Instr) (s : State) : ∃ (w : CfgWrite) (r : Response), w.IssuedBy i s.config ∧
    exec i s = .next ((s.withCfg (w.apply s.cfg)).respond r) := by
  obtain ⟨w, r, hw, hs, -⟩ := exec_actsAlike (i := i) rfl (s.cfg.sameView_refl.readsAlike i)
  exact ⟨w, r, hw, hs⟩

/-! Every step. -/

section Step
variable {s : State} {b : Byte} {i : Instr} {rest : Bytes} {why : ListingReject}

theorem step_of_idle (h : decode s.input = .idle) : step s = .next s := by
  simp only [step, fetch, h]

theorem step_of_command (h : decode s.input = .command i rest) : step s = exec i (s.withInput rest) := by
  simp only [step, fetch, h]

theorem step_of_illegal (h : decode s.input = .illegal b rest) :
    step s = .next ((s.withInput rest).respond ⟨.illegalCommand, .none, none⟩) := by
  simp only [step, fetch, h, illegalCommand_eq]

theorem step_of_refused (h : decode s.input = .refused why) : step s = .refused (.notACommand why) := by
  simp only [step, fetch, h]

end Step

/-- The state after a step: `CFG` written, the input advanced, the step's responses added. -/
def State.advance (s : State) (w : CfgWrite) (rest : Bytes) (new : List Response) : State :=
  { s with cfg := w.apply s.cfg, input := rest, out := s.out ++ new }

/-- Two blocks of the same parameters and input, whose configurations differ at most in an unassigned
`LOCAL_ADDR`, take the same step: one write, one advance of the input, and at most one response in both. -/
theorem step_alike {s t : State} (hf : s.config = t.config) (hi : s.input = t.input)
    (hv : s.cfg.SameView t.cfg) :
    (∃ w rest new, new.length ≤ 1 ∧ step s = .next (s.advance w rest new) ∧
      step t = .next (t.advance w rest new)) ∨
    ∃ r, step s = .refused r ∧ step t = .refused r := by
  cases hd : decode s.input with
  | idle =>
    have stays : ∀ u : State, u.advance .keep u.input [] = u := fun u => by simp [State.advance, CfgWrite.apply]
    refine .inl ⟨.keep, s.input, [], by simp, ?_, ?_⟩
    · rw [step_of_idle hd, stays]
    · rw [step_of_idle (hi ▸ hd), hi, stays]
  | command i rest =>
    obtain ⟨w, r, -, hs, ht⟩ :=
      exec_actsAlike (i := i) (s := s.withInput rest) (t := t.withInput rest) hf (hv.readsAlike i)
    exact .inl ⟨w, rest, [r], by simp, (step_of_command hd).trans hs, (step_of_command (hi ▸ hd)).trans ht⟩
  | illegal b rest =>
    exact .inl ⟨.keep, rest, [⟨.illegalCommand, .none, none⟩], by simp, step_of_illegal hd,
      step_of_illegal (hi ▸ hd)⟩
  | refused why => exact .inr ⟨_, step_of_refused hd, step_of_refused (hi ▸ hd)⟩

end Sys2Proof.Machine
end

section
/-! PROOFS. The statements about the state: the table invariant, the reset values, what a command writes and reads, and what no step can tell apart (10_state.md R23 to R35). -/

namespace Sys2Proof.Machine

/-! The table invariant. -/

theorem resetWith_inv {c : Config} (hc : c.wf) : (State.resetWith c).Inv :=
  ⟨hc, Nat.zero_le _, fun _ he => nomatch he⟩

theorem exec_keeps_inv {i : Instr} {s s' : State} (hs : s.Inv) (h : exec i s = .next s') : s'.Inv := by
  obtain ⟨w, r, hw, hx⟩ := exec_writes i s
  obtain ⟨hwf, htable⟩ := hs
  cases hx.symm.trans h
  exact ⟨hwf, hw.table_ok htable⟩

theorem step_keeps_inv {s s' : State} (hs : s.Inv) (h : step s = .next s') : s'.Inv := by
  obtain ⟨-, rfl⟩ | ⟨b, rest, -, rfl⟩ | ⟨i, rest, -, hx⟩ := step_cases h
  · exact hs
  · exact hs
  · exact exec_keeps_inv (s := s.withInput rest) hs hx

/-- `SET_ROUTES` checks the length of a list and each entry on its own, so a list may repeat an entry (R28, R113). -/
theorem routesError_replicate {capacity n : Nat} {e : RouteEntry} (hn : n ≤ capacity) (he : RouteLegal e) :
    routesError capacity (List.replicate n e) = none :=
  routesError_none.mpr ⟨by rwa [List.length_replicate], fun _ h => List.eq_of_mem_replicate h ▸ he⟩

/-- Settles O11: the table is empty after reset, and the default capacity is 4. -/
theorem resetMeetsTheTableInvariant : Obligations.ResetMeetsTheTableInvariant :=
  ⟨fun _ hc => resetWith_inv hc, resetWith_inv (by decide)⟩

/-- Settles O13: the only write of the table is that of a list `SET_ROUTES` has checked. -/
theorem everyStepKeepsTheTableInvariant : Obligations.EveryStepKeepsTheTableInvariant :=
  ⟨fun _ hc => resetWith_inv hc, fun _ _ hs h => step_keeps_inv hs h,
    fun _ _ _ hn he => execSetRoutes_accepted (routesError_replicate hn he)⟩

/-! Frames. -/

/-- Settles O45: each kind of write is issued by one command. -/
theorem onlyConfigurationCommandsWriteCfg : Obligations.OnlyConfigurationCommandsWriteCfg := by
  intro i s
  obtain ⟨w, r, hw, hx⟩ := exec_writes i s
  exact ⟨w.apply s.cfg, r, hx, fun hi => hw.routes_eq hi s.cfg, fun hi => hw.local_eq hi s.cfg,
    fun hi => hw.ulReg_eq hi s.cfg⟩

/-- Settles O46: agreement on what is read gives one response and one write, whose values do not depend on
`CFG`. -/
theorem commandsReadOnlyTheirOwnFields : Obligations.CommandsReadOnlyTheirOwnFields := by
  intro i s t hf hr
  obtain ⟨w, r, -, hs, ht⟩ := exec_actsAlike hf (readsAlike_of_readsAgree hr)
  exact ⟨w.apply s.cfg, w.apply t.cfg, r, hs, ht, w.apply_leaves_or_sets s.cfg t.cfg⟩

/-! What no step can tell apart. -/

/-- Settles O52: both states take the same step, and a write to a `CFG` without a local address leaves it
unassigned or assigns the same one. -/
theorem unassignedLocalAddrIsUnobservable : Obligations.UnassignedLocalAddrIsUnobservable := by
  intro s a hv t
  obtain ⟨w, rest, new, -, hs, ht⟩ | hrefused :=
    step_alike (s := s) (t := t) rfl rfl (Cfg.sameView_localAddr a hv)
  · obtain ⟨b, hb, hassigned⟩ := w.apply_unassigned a hv
    refine .inl ⟨s.advance w rest new, b, hs, ?_, hassigned⟩
    have hcfg : t.advance w rest new =
        (s.advance w rest new).withCfg (w.apply { s.cfg with localAddr := a }) := rfl
    rw [ht, hcfg, hb]
    rfl
  · exact .inr hrefused

/-- Settles O53: the two states differ in nothing a step reads. -/
theorem observationIsNeverRead : Obligations.ObservationIsNeverRead := by
  intro s o
  obtain ⟨w, rest, new, hnew, hs, ht⟩ | hrefused :=
    step_alike (s := s) (t := { s with out := o }) rfl rfl s.cfg.sameView_refl
  · exact .inl ⟨s.advance w rest new, new, hs, rfl, hnew, ht⟩
  · exact .inr hrefused

/-- One step's indistinguishability, carried along a run: once an address is assigned the two runs are one. -/
theorem runOut_unassigned (k : Nat) {s : State} (a : Addr) (hv : s.cfg.localValid = false) :
    runOut k (s.withCfg { s.cfg with localAddr := a }) = runOut k s := by
  induction k generalizing s a with
  | zero => rfl
  | succ k ih =>
    obtain ⟨s', b, hs, ht, hb⟩ | ⟨r, hs, ht⟩ := unassignedLocalAddrIsUnobservable s a hv
    · simp only [runOut, hs, ht]
      by_cases hv' : s'.cfg.localValid = true
      · rw [hb hv']
        rfl
      · exact ih b (by simpa using hv')
    · simp only [runOut, hs, ht, withCfg_out]

/-- Settles O12: the reset values by computation, and `LOCAL_ADDR` by `runOut_unassigned`. -/
theorem resetLeavesTheBlockUnconfigured : Obligations.ResetLeavesTheBlockUnconfigured := by
  intro c
  refine ⟨rfl, rfl, rfl, fun a bs k => ?_⟩
  exact runOut_unassigned k (s := (State.resetWith c).withInput bs) a rfl

end Sys2Proof.Machine
end

section
/-! PROOFS. Commands in order: the byte stream runs them one at a time, a command may be repeated, and a write of `CFG` is seen by the next one (20_memory.md R46 to R49; 70_reset_and_hazards.md R196, R198). -/

namespace Sys2Proof.Machine

/-! The command stream. -/

theorem readOperands_writeOperands (i : Instr) : Laws.RoundTrip.Statement i := by
  cases i with
  | decode B => exact Laws.RoundTrip.decode B
  | encode f => exact Laws.RoundTrip.encode f
  | checksum H => exact Laws.RoundTrip.checksum H
  | setRoutes E => exact Laws.RoundTrip.setRoutes E
  | lookup a => exact Laws.RoundTrip.lookup a
  | setLocalAddr a => exact Laws.RoundTrip.setLocalAddr a
  | registerUl => exact Laws.RoundTrip.registerUl
  | classify B => exact Laws.RoundTrip.classify B
  | receive skip B => exact Laws.RoundTrip.receive skip B
  | send skip dst P => exact Laws.RoundTrip.send skip dst P

/-- The decoder takes exactly the first listing (R83). -/
theorem decode_encode_append {i : Instr} (hi : i.wf = true) (rest : Bytes) :
    decode (encode i ++ rest) = .command i rest := by
  simp only [encode, decode, List.cons_append, ofByte_code, readOperands_writeOperands i hi rest]

/-- Settles O4: `step_of_command` is the step's equation for a decoded command. -/
theorem stepRunsTheDecodedCommand : Obligations.StepRunsTheDecodedCommand :=
  fun _ _ _ hd => step_of_command hd

theorem step_encode_append {i : Instr} (hi : i.wf = true) (rest : Bytes) (s : State) :
    step (s.withInput (encode i ++ rest)) = exec i (s.withInput rest) :=
  step_of_command (s := s.withInput (encode i ++ rest)) (decode_encode_append hi rest)

theorem run_succ_of_step (M : Host.Core) {s s' : M.State} (h : M.step s = .next s') (k : Nat) :
    M.run (k + 1) s = M.run k s' := by
  rw [Host.Core.run, h]

theorem execAll_cons_of_exec {i : Instr} {s s' : State} (h : exec i s = .next s') (is : List Instr) :
    execAll (i :: is) s = execAll is s' := by
  rw [execAll, h]

/-- Settles O5, by induction on the commands: an operation leaves the input alone (`exec_withInput`), so it
gives one and the same next state before the listings still to come and before `rest`. -/
theorem stepsRunTheCommandsInOrder : Obligations.StepsRunTheCommandsInOrder := by
  intro is rest s hwf
  induction is generalizing s with
  | nil => rfl
  | cons i is ih =>
    obtain ⟨hi, his⟩ := List.forall_mem_cons.mp hwf
    obtain ⟨s', -, hx⟩ := exec_withInput i s
    have hstep : step (s.withInput (encode i ++ (is.flatMap encode ++ rest))) =
        .next (s'.withInput (is.flatMap encode ++ rest)) := (step_encode_append hi _ s).trans (hx _)
    rw [List.flatMap_cons, List.append_assoc, List.length_cons, run_succ_of_step Sys2Proof.core hstep, ih s' his,
      execAll_cons_of_exec (hx rest)]

/-! A command repeated. -/

section Repeat
variable {i : Instr} {s s1 s2 : State}

theorem exec_config (h : exec i s = .next s1) : s1.config = s.config := by
  obtain ⟨w, r, -, hx⟩ := exec_writes i s
  cases hx.symm.trans h
  rfl

/-- A command that writes nothing gives the same response again: the first left everything as it reads it. -/
theorem exec_twice_respond (h1 : exec i s = .next s1) (h2 : exec i s1 = .next s2)
    (hE : ∀ E, i ≠ .setRoutes E) (ha : ∀ a, i ≠ .setLocalAddr a) (hu : i ≠ .registerUl) :
    ∃ r, s1 = s.respond r ∧ s2 = s1.respond r := by
  obtain ⟨r, hr⟩ := exec_responds hE ha hu s
  cases (hr s rfl rfl).symm.trans h1
  cases (hr (s.respond r) rfl rfl).symm.trans h2
  exact ⟨r, rfl, rfl⟩

/-- A command that is neither `RECEIVE` nor `SEND` emits nothing (R75, R76). -/
theorem exec_events (h : exec i s = .next s1) (hr : ∀ skip B, i ≠ .receive skip B)
    (hs : ∀ skip dst P, i ≠ .send skip dst P) : s1.events = s.events := by
  obtain ⟨st, res, hx, -⟩ | ⟨c, hx, -⟩ | ⟨skip, B, -, hi, -⟩ | ⟨skip, B, -, -, hi, -⟩ | ⟨skip, dst, P, -, hi, -⟩ :=
    exec_cases i s
  · cases hx.symm.trans h
    simp
  · cases hx.symm.trans h
    simp [State.events]
  · exact absurd hi (hr skip B)
  · exact absurd hi (hr skip B)
  · exact absurd hi (hs skip dst P)

theorem CfgWrite.apply_apply (w : CfgWrite) (c : Cfg) : w.apply (w.apply c) = w.apply c := by
  cases w <;> rfl

/-- A command that reads nothing of `CFG` does the same write again, which then changes nothing. -/
theorem exec_twice_cfg (h1 : exec i s = .next s1) (h2 : exec i s1 = .next s2)
    (hread : ReadsAlike i s.cfg s1.cfg) : s2.cfg = s1.cfg := by
  obtain ⟨w, r, -, hs, hs1⟩ := exec_actsAlike (exec_config h1).symm hread
  cases hs.symm.trans h1
  cases hs1.symm.trans h2
  exact w.apply_apply s.cfg

/-- The pure commands (R49). -/
theorem exec_twice_pure (h1 : exec i s = .next s1) (h2 : exec i s1 = .next s2)
    (hE : ∀ E, i ≠ .setRoutes E) (ha : ∀ a, i ≠ .setLocalAddr a) (hu : i ≠ .registerUl)
    (hr : ∀ skip B, i ≠ .receive skip B) (hs : ∀ skip dst P, i ≠ .send skip dst P) :
    ∃ r, s1 = s.respond r ∧ s2 = s1.respond r ∧ r.event = none := by
  obtain ⟨r, rfl, rfl⟩ := exec_twice_respond h1 h2 hE ha hu
  have hev := exec_events h1 hr hs
  exact ⟨r, rfl, rfl, by simpa using hev⟩

/-- The configuration commands (R49). -/
theorem exec_twice_configuration (h1 : exec i s = .next s1) (h2 : exec i s1 = .next s2)
    (hread : ReadsAlike i s.cfg s1.cfg)
    (hr : ∀ skip B, i ≠ .receive skip B) (hs : ∀ skip dst P, i ≠ .send skip dst P) :
    s2.cfg = s1.cfg ∧ s2.events = s.events :=
  ⟨exec_twice_cfg h1 h2 hread, (exec_events h2 hr hs).trans (exec_events h1 hr hs)⟩

/-- The commands whose success emits an event (R49). -/
theorem exec_twice_emitting (h1 : exec i s = .next s1) (h2 : exec i s1 = .next s2)
    (hE : ∀ E, i ≠ .setRoutes E) (ha : ∀ a, i ≠ .setLocalAddr a) (hu : i ≠ .registerUl)
    (hemit : ∃ r, exec i s = .next (s.respond r) ∧ (r.status.success = true → ∃ ev, r.event = some ev)) :
    ∃ r, s1 = s.respond r ∧ s2 = s1.respond r ∧
      (r.status.success = true → s1.events.length = s.events.length + 1 ∧
        s2.events.length = s.events.length + 2) := by
  obtain ⟨r, rfl, rfl⟩ := exec_twice_respond h1 h2 hE ha hu
  obtain ⟨r', hx, hev⟩ := hemit
  cases next_respond_inj (hx.symm.trans h1)
  refine ⟨r, rfl, rfl, fun hok => ?_⟩
  obtain ⟨ev, hr⟩ := hev hok
  simp [hr]

end Repeat

/-- `RECEIVE` succeeds only with an event (R145, R156). -/
theorem execReceive_success_emits (skip : Bool) (B : Bytes) (s : State) :
    ∃ r, execReceive skip B s = .next (s.respond r) ∧
      (r.status.success = true → ∃ ev, r.event = some ev) := by
  by_cases h : DecodeOk B
  · by_cases hl : s.cfg.localValid = true ∧ wireAddr B 16 = s.cfg.localAddr.toNat
    · rw [execReceive_local h hl]
      obtain ⟨-, hx⟩ | ⟨-, -, hx⟩ | ⟨-, -, hx⟩ := receiveLocal_cases (decodeFields B h.1) s
      · exact ⟨_, hx, nofun⟩
      · exact ⟨_, hx, nofun⟩
      · exact ⟨_, hx, fun _ => ⟨_, rfl⟩⟩
    · rw [execReceive_remote h hl]
      obtain ⟨-, hx⟩ | ⟨-, -, hx⟩ | ⟨nh, -, -, hx⟩ := receiveRemote_cases skip (decodeFields B h.1) s
      · exact ⟨_, hx, nofun⟩
      · exact ⟨_, hx, nofun⟩
      · exact ⟨_, hx, fun _ => ⟨_, rfl⟩⟩
  · exact ⟨_, execReceive_malformed h s, nofun⟩

/-- `SEND` succeeds only with an event (R165). -/
theorem execSend_success_emits (skip : Bool) (dst : Addr) (P : Bytes) (s : State) :
    ∃ r, execSend skip dst P s = .next (s.respond r) ∧
      (r.status.success = true → ∃ ev, r.event = some ev) := by
  obtain ⟨-, hx⟩ | ⟨nh, -, -, hx⟩ | ⟨nh, -, -, -, hx⟩ | ⟨nh, -, -, -, hx⟩ := execSend_cases skip dst P s
  · exact ⟨_, hx, nofun⟩
  · exact ⟨_, hx, nofun⟩
  · exact ⟨_, hx, nofun⟩
  · exact ⟨_, hx, fun _ => ⟨_, rfl⟩⟩

/-- Settles O50: the pure commands and the datagram commands leave all they read as it was, and the
configuration commands read nothing of `CFG`. -/
theorem repeatingACommand : Obligations.RepeatingACommand := by
  intro i s s1 s2 h1 h2
  refine ⟨fun hi => ?_, fun hi => ?_, fun hi => ?_⟩
  · rcases hi with ⟨B, rfl⟩ | ⟨f, rfl⟩ | ⟨H, rfl⟩ | ⟨a, rfl⟩ | ⟨B, rfl⟩ <;>
      exact exec_twice_pure h1 h2 nofun nofun nofun nofun nofun
  · rcases hi with ⟨a, rfl⟩ | ⟨E, rfl⟩ | rfl <;>
      exact exec_twice_configuration h1 h2 trivial nofun nofun
  · rcases hi with ⟨skip, B, rfl⟩ | ⟨skip, dst, P, rfl⟩
    · exact exec_twice_emitting h1 h2 nofun nofun nofun (execReceive_success_emits skip B s)
    · exact exec_twice_emitting h1 h2 nofun nofun nofun (execSend_success_emits skip dst P s)

/-! A write of `CFG`, seen by the next command. -/

theorem execClassify_local {B : Bytes} (h : DecodeOk B) {s : State}
    (hl : s.cfg.localValid = true ∧ wireAddr B 16 = s.cfg.localAddr.toNat) :
    execClassify B s = .next (s.respond ⟨.ok, .dispatch .deliver, none⟩) := by
  rw [execClassify_ok h, classify_deliver (by rwa [memRead32_toNat])]

/-- Host mode with the supported protocol and a registered upper layer (R145). -/
theorem execReceive_delivers {skip : Bool} {B : Bytes} (h : DecodeOk B) {s : State}
    (hl : s.cfg.localValid = true ∧ wireAddr B 16 = s.cfg.localAddr.toNat)
    (hp : wireByte B 9 = s.config.supportedProto.toNat) (hu : s.cfg.ulReg = true) :
    execReceive skip B s = .next (s.respond ⟨.delivered, .none, some (.ulDeliver (decodeFields B h.1).src
      (decodeFields B h.1).dst (decodeFields B h.1).payload)⟩) := by
  obtain ⟨-, -, -, -, -, -, hproto, -⟩ := decodeFields_wire B h.1
  have hd : (decodeFields B h.1).proto = s.config.supportedProto := BitVec.eq_of_toNat_eq (hproto.trans hp)
  rw [execReceive_local h hl]
  obtain ⟨hd', -⟩ | ⟨-, hu', -⟩ | ⟨-, -, hx⟩ := receiveLocal_cases (decodeFields B h.1) s
  · exact absurd hd hd'
  · cases hu.symm.trans hu'
  · exact hx

/-- Settles O51: the write is in the state that the next command starts from. -/
theorem configurationIsSeenByTheNextCommand : Obligations.ConfigurationIsSeenByTheNextCommand := by
  intro s s'
  refine ⟨fun E a i e hn hE hb he hx => ?_, fun a B h ha hx => ?_, fun skip B h hv ha hp hx => ?_⟩
  · cases (execSetRoutes_accepted (routesError_none.mpr ⟨hn, hE⟩)).symm.trans hx
    exact execLookup_route (lpm_of_bestAt hE hb he)
  · cases hx
    exact execClassify_local h ⟨rfl, ha⟩
  · cases hx
    exact ⟨_, execReceive_delivers h ⟨hv, ha⟩ hp rfl⟩

end Sys2Proof.Machine
end

section
/-! PROOFS. The listing: encoder and decoder are inverse to each other, each command's layout, the bytes that are no command, and the codes (30_encoding.md R70 to R74, R79, R83). -/

namespace Sys2Proof

/-! The decoder. -/

/-- A decoded command is one opcode byte and the operands its reader took. -/
theorem decode_eq_command {bs rest : Bytes} {i : Instr} (h : decode bs = .command i rest) :
    ∃ (o : Opcode) (operands : Bytes), bs = o.code :: operands ∧ readOperands o operands = .ok (i, rest) := by
  cases bs with
  | nil => cases h
  | cons op operands =>
    cases ho : Opcode.ofByte op with
    | none => simp [decode, ho] at h
    | some o =>
      cases hr : readOperands o operands with
      | error why => simp [decode, ho, hr] at h
      | ok x =>
        obtain ⟨i', rest'⟩ := x
        simp only [decode, ho, hr, Decoded.command.injEq] at h
        obtain ⟨rfl, rfl⟩ := h
        exact ⟨o, operands, by rw [ofByte_some ho], hr⟩

theorem decode_of_ofByte_none {b : Byte} (h : Opcode.ofByte b = none) (bs : Bytes) :
    decode (b :: bs) = .illegal b bs := by
  simp only [decode, h]

theorem decode_of_readOperands_error {o : Opcode} {bs : Bytes} {why : ListingReject}
    (h : readOperands o bs = .error why) : decode (o.code :: bs) = .refused why := by
  simp only [decode, ofByte_code, h]

/-! Where a reader refuses. -/

theorem Read.andThen_error {α β : Type} {r : Read α} {why : ListingReject} (h : r = .error why)
    (f : α → Bytes → Read β) : r.andThen f = .error why := by
  rw [h, Read.andThen]

theorem Read.andThen_of_ok {α β : Type} {r : Read α} {a : α} {bs : Bytes} (h : r = .ok (a, bs))
    (f : α → Bytes → Read β) : r.andThen f = f a bs := by
  rw [h, Read.andThen]

theorem readBool_ckSkip {b : Byte} (h : 2 ≤ b.toNat) (bs : Bytes) : readBool (b :: bs) = .error .ckSkip := by
  have h0 : b ≠ 0#8 := by rintro rfl; simp at h
  have h1 : b ≠ 1#8 := by rintro rfl; simp at h
  simp only [readBool, readByte, Read.andThen, if_neg h0, if_neg h1]

/-- A narrow operand is refused for its padding, or is read and what follows is refused for its own. -/
theorem readBits_andThen_padding {β : Type} {w : Nat} {b : Byte} {bs : Bytes} {f : BitVec w → Bytes → Read β}
    (h : b.toNat < 2 ^ w → f (b.setWidth w) bs = .error .padding) :
    (readBits w (b :: bs)).andThen f = .error .padding := by
  by_cases hb : b.toNat < 2 ^ w
  · exact (Read.andThen_of_ok (if_pos hb) f).trans (h hb)
  · exact Read.andThen_error (if_neg hb) f

theorem readFrag_padding {b1 : Byte} (h : 32 ≤ b1.toNat) (b0 : Byte) (bs : Bytes) :
    readFrag (b1 :: b0 :: bs) = .error .padding :=
  narrow_padding bs (by rw [join16_toNat]; omega)

/-- A set bit above `dscp`, `ecn`, `flags` or `frag` (R83). -/
theorem readFields_padding {d e fl g1 : Byte}
    (h : 64 ≤ d.toNat ∨ 4 ≤ e.toNat ∨ 8 ≤ fl.toNat ∨ 32 ≤ g1.toNat) (t1 t0 i1 i0 g0 : Byte) (bs : Bytes) :
    readFields (d :: e :: t1 :: t0 :: i1 :: i0 :: fl :: g1 :: g0 :: bs) = .error .padding := by
  refine readBits_andThen_padding fun hd => readBits_andThen_padding fun he => ?_
  rw [readHalf, Read.andThen_of_ok rfl, readHalf, Read.andThen_of_ok rfl]
  refine readBits_andThen_padding fun hfl => Read.andThen_error (readFrag_padding ?_ g0 bs) _
  omega

/-- A set bit above the prefix length of any entry, after any number of entries that are well formed (R83). -/
theorem readEntries_padding {n : Nat} {E : List RouteEntry} (hn : E.length < n) (net : Addr) {b : Byte}
    (hb : 64 ≤ b.toNat) (bs : Bytes) :
    readEntries n (E.flatMap writeEntry ++ (be32 net ++ b :: bs)) = .error .padding := by
  induction E generalizing n with
  | nil =>
    obtain ⟨m, rfl⟩ := Nat.exists_eq_add_of_lt hn
    refine Read.andThen_error ?_ _
    rw [List.flatMap_nil, List.nil_append, readEntry, Read.andThen_of_ok (readAddr_ok.mpr rfl)]
    exact readBits_andThen_padding fun h => by omega
  | cons e E ih =>
    cases n with
    | zero => cases hn
    | succ n =>
      rw [List.flatMap_cons, List.append_assoc, readEntries, Read.andThen_of_ok (readEntry_ok.mpr rfl),
        Read.andThen_error (ih (Nat.lt_of_succ_lt_succ hn))]

end Sys2Proof

namespace Sys2Proof.Machine

/-! The round trip. -/

/-- Settles O1: every command's reader reads back what its writer wrote. -/
theorem decodeOfEncodeIsTheCommand : Obligations.DecodeOfEncodeIsTheCommand :=
  fun _ rest hi => decode_encode_append hi rest

/-- Settles O2: each reader succeeds only on what the matching writer writes (`readOperands_ok`). -/
theorem decodedBytesAreTheListing : Obligations.DecodedBytesAreTheListing := by
  intro bs i rest h
  obtain ⟨o, operands, rfl, hr⟩ := decode_eq_command h
  obtain ⟨rfl, hwf, rfl⟩ := readOperands_ok hr
  exact ⟨rfl, hwf⟩

/-- Settles O3: each word is the listing of its command, operand by operand. -/
theorem listedWordsDecode : Obligations.ListedWordsDecode :=
  ⟨decode_encode_append (i := .encode ⟨46#6, 1#2, 40#16, 0xBEEF#16, 2#3, 0#13, 128#8, 17#8, 0#16,
      0x01020304#32, 0x05060708#32⟩) rfl [],
    decode_encode_append (i := .setRoutes [⟨0x0A000000#32, 24#6, 0x0A000001#32⟩]) rfl [],
    decode_encode_append (i := .setLocalAddr 0x0A000002#32) rfl [0x21#8],
    decode_encode_append (i := .send true 0x08080808#32 [0x68#8, 0x69#8]) rfl []⟩

/-! Illegal opcodes. -/

theorem code_mem_legal (o : Opcode) :
    o.code ∈ [0x01#8, 0x02#8, 0x03#8, 0x10#8, 0x11#8, 0x20#8, 0x21#8, 0x30#8, 0x31#8, 0x32#8] := by
  cases o <;> decide

/-- Settles O6: a byte outside the table is no opcode's code, and the decoder takes only that byte. -/
theorem illegalOpcodeOnlyReturnsItsStatus : Obligations.IllegalOpcodeOnlyReturnsItsStatus := by
  refine ⟨fun b bs s hb => ?_, by decide +kernel⟩
  have hnone : Opcode.ofByte b = none := ofByte_none.mpr fun o ho => hb (ho ▸ code_mem_legal o)
  exact step_of_illegal (s := s.withInput (b :: bs)) (decode_of_ofByte_none hnone bs)

/-! The layouts. -/

theorem wireHalf_append_right (A B : Bytes) (i : Nat) : wireHalf (A ++ B) (A.length + i) = wireHalf B i := by
  simp only [wireHalf, Nat.add_assoc, wireByte_append_right]

theorem wireAddr_append_right (A B : Bytes) (i : Nat) : wireAddr (A ++ B) (A.length + i) = wireAddr B i := by
  simp only [wireAddr, Nat.add_assoc, wireHalf_append_right]

/-- A count of four bytes is the true one (R83). -/
theorem wireAddr_count {n : Nat} (h : n < 2 ^ 32) (B : Bytes) :
    wireAddr (be32 (BitVec.ofNat 32 n) ++ B) 0 = n := by
  rw [wireAddr_be32, BitVec.toNat_ofNat, Nat.mod_eq_of_lt h]

/-- An operand narrower than a byte stands in it with its unused high bits zero (R83). -/
theorem wireByte_writeBits {w : Nat} (hw : w ≤ 8) (v : BitVec w) (B : Bytes) :
    wireByte (writeBits v ++ B) 0 = v.toNat := BitVec.toNat_setWidth_of_le hw

theorem encode_encode_wire (f : HeaderFields) : let L := encode (.encode f)
    L.length = 22 ∧ wireByte L 0 = 0x02 ∧ wireByte L 1 = f.dscp.toNat ∧ wireByte L 2 = f.ecn.toNat ∧
    wireHalf L 3 = f.tlen.toNat ∧ wireHalf L 5 = f.ident.toNat ∧ wireByte L 7 = f.flags.toNat ∧
    wireHalf L 8 = f.frag.toNat ∧ wireByte L 10 = f.ttl.toNat ∧ wireByte L 11 = f.proto.toNat ∧
    wireHalf L 12 = f.ck.toNat ∧ wireAddr L 14 = f.src.toNat ∧ wireAddr L 18 = f.dst.toNat := by
  have hfrag : (f.frag.setWidth 16).toNat = f.frag.toNat := BitVec.toNat_setWidth_of_le (by decide)
  exact ⟨rfl, rfl, wireByte_writeBits (by decide) f.dscp [], wireByte_writeBits (by decide) f.ecn [],
    wireHalf_be16 f.tlen [], wireHalf_be16 f.ident [], wireByte_writeBits (by decide) f.flags [],
    (wireHalf_be16 (f.frag.setWidth 16) []).trans hfrag, rfl, rfl,
    wireHalf_be16 f.ck [], wireAddr_be32 f.src [], wireAddr_be32 f.dst []⟩

/-- One entry: nine bytes (R83). -/
theorem writeEntry_wire (e : RouteEntry) (B : Bytes) :
    wireAddr (writeEntry e ++ B) 0 = e.net.toNat ∧ wireByte (writeEntry e ++ B) 4 = e.plen.toNat ∧
    wireAddr (writeEntry e ++ B) 5 = e.nh.toNat :=
  ⟨wireAddr_be32 e.net _, wireByte_writeBits (by decide) e.plen [], wireAddr_be32 e.nh B⟩

theorem flatMap_writeEntry_length (E : List RouteEntry) : (E.flatMap writeEntry).length = 9 * E.length := by
  induction E with
  | nil => rfl
  | cons e E ih =>
    have he : (writeEntry e).length = 9 := rfl
    rw [List.flatMap_cons, List.length_append, ih, he, List.length_cons]
    omega

/-- Entry `k` of the listing of `SET_ROUTES` stands after the opcode, the count and `k` entries (R83). -/
theorem encode_setRoutes_split (E : List RouteEntry) (k : Nat) (h : k < E.length) :
    ∃ before after : Bytes, before.length = 5 + 9 * k ∧
      encode (.setRoutes E) = before ++ (writeEntry E[k] ++ after) := by
  refine ⟨0x10#8 :: be32 (BitVec.ofNat 32 E.length) ++ (E.take k).flatMap writeEntry,
    (E.drop (k + 1)).flatMap writeEntry, ?_, ?_⟩
  · have hk : ((E.take k).flatMap writeEntry).length = 9 * k := by
      rw [flatMap_writeEntry_length, List.length_take_of_le (Nat.le_of_lt h)]
    rw [List.length_append, hk, List.length_cons, be32_length]
  · have hE : E.flatMap writeEntry = (E.take k).flatMap writeEntry ++
        (writeEntry E[k] ++ (E.drop (k + 1)).flatMap writeEntry) := by
      rw [← List.flatMap_cons, ← List.drop_eq_getElem_cons h, ← List.flatMap_append, List.take_append_drop]
    rw [encode, writeOperands, hE, List.cons_append, List.cons_append, List.append_assoc]
    rfl

theorem encode_setRoutes_wire (E : List RouteEntry) (hE : E.length < 2 ^ 32) : let L := encode (.setRoutes E)
    L.length = 5 + 9 * E.length ∧ wireByte L 0 = 0x10 ∧ wireAddr L 1 = E.length ∧
    ∀ (k : Nat) (h : k < E.length), wireAddr L (5 + 9 * k) = E[k].net.toNat ∧
      wireByte L (9 + 9 * k) = E[k].plen.toNat ∧ wireAddr L (10 + 9 * k) = E[k].nh.toNat := by
  refine ⟨?_, rfl, wireAddr_count hE (E.flatMap writeEntry), fun k h => ?_⟩
  · rw [encode, writeOperands, List.length_cons, List.length_append, flatMap_writeEntry_length, be32_length]
    omega
  · obtain ⟨before, after, hlen, hL⟩ := encode_setRoutes_split E k h
    obtain ⟨hnet, hplen, hnh⟩ := writeEntry_wire E[k] after
    rw [hL, show 5 + 9 * k = before.length + 0 by omega, show 9 + 9 * k = before.length + 4 by omega,
      show 10 + 9 * k = before.length + 5 by omega, wireAddr_append_right, wireByte_append_right,
      wireAddr_append_right]
    exact ⟨hnet, hplen, hnh⟩

/-- Settles O7: each operand's writer puts its number where the layout says. -/
theorem listingsHaveTheirLayouts : Obligations.ListingsHaveTheirLayouts := by
  refine ⟨fun B op i hi hB => ?_, encode_encode_wire, fun _ => rfl, encode_setRoutes_wire, fun a op i hi => ?_,
    rfl, fun skip B hB => ?_, fun skip dst P hP => ?_⟩
  · obtain ⟨rfl, rfl⟩ | ⟨rfl, rfl⟩ := hi
    · exact ⟨_, rfl, wireAddr_count hB B⟩
    · exact ⟨_, rfl, wireAddr_count hB B⟩
  · obtain ⟨rfl, rfl⟩ | ⟨rfl, rfl⟩ := hi
    · exact ⟨rfl, rfl, wireAddr_be32 a []⟩
    · exact ⟨rfl, rfl, wireAddr_be32 a []⟩
  · exact ⟨_, rfl, wireAddr_count hB B⟩
  · exact ⟨dst, _, rfl, wireAddr_be32 dst [], wireAddr_count hP P⟩

/-! Bytes that are no command. -/

/-- Operands that cannot be read make the step refuse the listing by name (R83; log 2). -/
theorem step_of_readOperands_error {o : Opcode} {bs : Bytes} {why : ListingReject}
    (h : readOperands o bs = .error why) (s : State) :
    step (s.withInput (o.code :: bs)) = .refused (.notACommand why) :=
  step_of_refused (s := s.withInput (o.code :: bs)) (decode_of_readOperands_error h)

/-- Settles O8: the operand at fault cannot be read, whatever stands before and after it. -/
theorem malformedListingIsNotACommand : Obligations.MalformedListingIsNotACommand := by
  refine ⟨fun b bs s hb op hop => ?_, fun d e t1 t0 i1 i0 fl g1 g0 bs s h => ?_, fun n net E b bs s hE hb => ?_⟩
  · have hskip := readBool_ckSkip hb bs
    obtain rfl | rfl : op = 0x31#8 ∨ op = 0x32#8 := by simpa using hop
    · exact step_of_readOperands_error (o := .receive) (Read.andThen_error hskip _) s
    · exact step_of_readOperands_error (o := .send) (Read.andThen_error hskip _) s
  · have hfields := readFields_padding h t1 t0 i1 i0 g0 bs
    exact step_of_readOperands_error (o := .encode) (Read.andThen_error hfields _) s
  · have hentries := readEntries_padding hE net hb bs
    have hread : readOperands .setRoutes (be32 n ++ (E.flatMap writeEntry ++ (be32 net ++ b :: bs))) =
        .error .padding := by
      rw [readOperands, Read.andThen_of_ok (readAddr_ok.mpr rfl), Read.andThen_error hentries]
    have hassoc : 0x10#8 :: be32 n ++ E.flatMap writeEntry ++ be32 net ++ b :: bs =
        Opcode.setRoutes.code :: (be32 n ++ (E.flatMap writeEntry ++ (be32 net ++ b :: bs))) := by
      simp [Opcode.code]
    rw [hassoc]
    exact step_of_readOperands_error hread s

/-! The codes. -/

/-- The statuses, in the order of the table (R79). -/
def Status.all : List Status :=
  [.ok, .delivered, .forwarded, .decodeError, .noRoute, .ttlExpired, .unsupportedProtocol, .noConsumer,
    .noLocalAddress, .payloadTooLarge, .configError, .illegalCommand]

theorem Status.mem_all (a : Status) : a ∈ Status.all := by
  cases a <;> decide

/-- Settles O54: no code stands twice in the table, and every status is in it. -/
theorem statusCodesAreThoseOfTheTable : Obligations.StatusCodesAreThoseOfTheTable := by
  have hnodup : (Status.all.map Status.code).Nodup := by decide
  exact ⟨rfl, fun a b h => List.inj_on_of_nodup_map hnodup a.mem_all b.mem_all h⟩

end Sys2Proof.Machine
end

section
/-! PROOFS. What comes out: each command's results, statuses and events, and the datagrams handed to the link layer (30_encoding.md R75 to R80). -/

namespace Sys2Proof.Machine

/-! The response of a command. -/

/-- The one response a command adds to the observation is the one it is known to answer with. -/
theorem response_eq {i : Instr} {s s' t : State} {r r' : Response} (h : exec i s = .next s')
    (hout : s'.out = s.out ++ [r]) (hx : exec i s = .next (t.respond r')) : r = r' := by
  obtain ⟨w, r₀, -, hw⟩ := exec_writes i s
  cases hw.symm.trans h
  obtain rfl : r₀ = r := by simpa using hout
  exact next_respond_inj (hw.symm.trans hx)

/-! Results, statuses and events, command by command. -/

theorem execReceive_fits (skip : Bool) (B : Bytes) (s : State) :
    ∃ r, execReceive skip B s = .next (s.respond r) ∧ r.fits (.receive skip B) := by
  by_cases h : DecodeOk B
  · by_cases hl : s.cfg.localValid = true ∧ wireAddr B 16 = s.cfg.localAddr.toNat
    · rw [execReceive_local h hl]
      obtain ⟨-, hx⟩ | ⟨-, -, hx⟩ | ⟨-, -, hx⟩ := receiveLocal_cases (decodeFields B h.1) s
      · exact ⟨_, hx, rfl, .inr (.inr ⟨rfl, by decide⟩)⟩
      · exact ⟨_, hx, rfl, .inr (.inr ⟨rfl, by decide⟩)⟩
      · exact ⟨_, hx, rfl, .inl ⟨rfl, _, _, _, rfl⟩⟩
    · rw [execReceive_remote h hl]
      obtain ⟨-, hx⟩ | ⟨-, -, hx⟩ | ⟨nh, -, -, hx⟩ := receiveRemote_cases skip (decodeFields B h.1) s
      · exact ⟨_, hx, rfl, .inr (.inr ⟨rfl, by decide⟩)⟩
      · exact ⟨_, hx, rfl, .inr (.inr ⟨rfl, by decide⟩)⟩
      · exact ⟨_, hx, rfl, .inr (.inl ⟨rfl, _, nh, rfl⟩)⟩
  · exact ⟨_, execReceive_malformed h s, rfl, .inr (.inr ⟨rfl, by decide⟩)⟩

theorem execSend_fits (skip : Bool) (dst : Addr) (P : Bytes) (s : State) :
    ∃ r, execSend skip dst P s = .next (s.respond r) ∧ r.fits (.send skip dst P) := by
  obtain ⟨-, hx⟩ | ⟨nh, -, -, hx⟩ | ⟨nh, -, -, -, hx⟩ | ⟨nh, -, -, -, hx⟩ := execSend_cases skip dst P s
  · exact ⟨_, hx, rfl, .inr ⟨rfl, by decide⟩⟩
  · exact ⟨_, hx, rfl, .inr ⟨rfl, by decide⟩⟩
  · exact ⟨_, hx, rfl, .inr ⟨rfl, by decide⟩⟩
  · exact ⟨_, hx, rfl, .inl ⟨rfl, _, nh, rfl⟩⟩

/-- Every command answers with a response of its own kind (R79, R80). -/
theorem exec_fits (i : Instr) (s : State) :
    ∃ (c : Cfg) (r : Response), exec i s = .next ((s.withCfg c).respond r) ∧ r.fits i := by
  cases i with
  | decode B =>
    by_cases h : DecodeOk B
    · exact ⟨s.cfg, _, execDecode_ok h s, rfl, .inl ⟨rfl, _, rfl⟩⟩
    · exact ⟨s.cfg, _, execDecode_malformed h s, rfl, .inr ⟨rfl, rfl⟩⟩
  | encode f => exact ⟨s.cfg, _, rfl, rfl, rfl, _, rfl⟩
  | checksum H => exact ⟨s.cfg, _, rfl, rfl, rfl, _, rfl⟩
  | setRoutes E =>
    cases he : routesError s.config.routeCapacity E with
    | none => exact ⟨_, _, execSetRoutes_accepted he, rfl, .inl ⟨rfl, rfl⟩⟩
    | some x => exact ⟨s.cfg, _, execSetRoutes_refused he, rfl, .inr ⟨rfl, _, _, rfl⟩⟩
  | lookup a =>
    cases hl : lpm s.cfg.routes a with
    | route nh => exact ⟨s.cfg, _, execLookup_route hl, rfl, .inl ⟨rfl, nh, rfl⟩⟩
    | noRoute => exact ⟨s.cfg, _, execLookup_noRoute hl, rfl, .inr ⟨rfl, rfl⟩⟩
  | setLocalAddr a => exact ⟨_, _, rfl, rfl, rfl, rfl⟩
  | registerUl => exact ⟨_, _, rfl, rfl, rfl, rfl⟩
  | classify B =>
    by_cases h : DecodeOk B
    · exact ⟨s.cfg, _, execClassify_ok h s, rfl, .inl ⟨rfl, _, rfl⟩⟩
    · exact ⟨s.cfg, _, execClassify_malformed h s, rfl, .inr ⟨rfl, rfl⟩⟩
  | receive skip B => exact ⟨s.cfg, execReceive_fits skip B s⟩
  | send skip dst P => exact ⟨s.cfg, execSend_fits skip dst P s⟩

/-- Settles O47: the response that `exec_fits` speaks of is the only one. -/
theorem commandsReturnTheirOwnResults : Obligations.CommandsReturnTheirOwnResults := by
  intro i s s' r h hout
  obtain ⟨c, r', hx, hfits⟩ := exec_fits i s
  exact response_eq h hout hx ▸ hfits

/-- Settles O49: of the five things an operation can do, the last three emit an event, each in its own mode. -/
theorem eventsComeOnlyFromTheDatagramPath : Obligations.EventsComeOnlyFromTheDatagramPath := by
  intro i s s' r h hout
  obtain ⟨st, res, hx, -⟩ | ⟨c, hx, -⟩ | ⟨skip, B, hok, hi, hl, -, -, hx⟩ |
    ⟨skip, B, nh, hok, hi, hl, -, -, hx⟩ | ⟨skip, dst, P, nh, hi, -, -, -, hx⟩ := exec_cases i s
  · cases response_eq h hout hx
    exact ⟨nofun, nofun⟩
  · cases response_eq h hout hx
    exact ⟨nofun, nofun⟩
  · cases response_eq h hout hx
    exact ⟨nofun, fun _ _ _ _ => ⟨rfl, skip, B, hi, hl⟩⟩
  · cases response_eq h hout hx
    exact ⟨fun _ _ _ => .inl ⟨rfl, skip, B, hi, hl⟩, nofun⟩
  · cases response_eq h hout hx
    exact ⟨fun _ _ _ => .inr ⟨rfl, skip, dst, P, hi⟩, nofun⟩

/-! Well-formed outputs. -/

/-- A sealed header that carries the total length of its payload, and a payload that fits, are a whole
datagram (R61, R63, R154, R164). -/
theorem sealHeader_wholeDatagram (skip : Bool) {f : HeaderFields} {P : Bytes} (hlen : f.tlen = totalLength P)
    (hP : P.length ≤ maxDgramLen - headerLen) : WholeDatagram ((sealHeader skip f).toList ++ P) := by
  obtain ⟨ck, hs, -⟩ := sealHeader_spec skip f
  obtain ⟨-, -, htotal, -⟩ := sealHeader_wire skip f P _ rfl
  obtain ⟨hmin, hmax, hfirst⟩ := decodeOk_encodeFields { f with ck := ck } P hP
  rw [← hs] at hmin hmax hfirst
  refine ⟨hmin, hmax, hfirst, ?_⟩
  rw [htotal, hlen, totalLength, BitVec.toNat_ofNat, List.length_append, Vector.length_toList]
  exact Nat.mod_eq_of_lt (by simp only [maxDgramLen, headerLen] at hP ⊢; omega)

/-- A datagram the block accepts is its header and its payload (R93). -/
theorem decodeFields_payload_length {B : Bytes} (h : DecodeOk B) :
    headerLen + (decodeFields B h.1).payload.length = B.length := by
  rw [show (decodeFields B h.1).payload = B.drop headerLen from rfl, List.length_drop]
  exact Nat.add_sub_of_le h.1

/-- The payload of a datagram the block accepts fits a datagram again (R13, R92). -/
theorem decodeFields_payload_fits {B : Bytes} (h : DecodeOk B) :
    (decodeFields B h.1).payload.length ≤ maxDgramLen - headerLen :=
  Nat.le_sub_of_add_le' ((decodeFields_payload_length h).trans_le h.2.1)

/-- Every command gives a well-formed response: of the five things an operation can do, the last three emit
an event. -/
theorem exec_response_wf (i : Instr) (s : State) :
    ∃ c r, exec i s = .next ((s.withCfg c).respond r) ∧ r.wf := by
  obtain ⟨st, res, hx, hd, hf⟩ | ⟨c, hx, -⟩ | ⟨skip, B, h, -, -, -, -, hx⟩ | ⟨skip, B, nh, h, -, -, -, -, hx⟩ |
    ⟨skip, dst, P, nh, -, -, -, hP, hx⟩ := exec_cases i s
  · exact ⟨s.cfg, _, hx, hd, hf⟩
  · exact ⟨c, _, hx, nofun, nofun⟩
  · exact ⟨s.cfg, _, hx, rfl, (decodeFields_payload_length h).trans_le h.2.1⟩
  · exact ⟨s.cfg, _, hx, .inr rfl, sealHeader_wholeDatagram skip rfl (decodeFields_payload_fits h)⟩
  · exact ⟨s.cfg, _, hx, .inl rfl, sealHeader_wholeDatagram skip rfl hP⟩

theorem respond_outputsOk {s : State} {r : Response} (hs : s.OutputsOk) (hr : r.wf) :
    (s.respond r).OutputsOk := by
  intro r' hr'
  rw [respond_out, List.mem_append, List.mem_singleton] at hr'
  obtain hold | rfl := hr'
  · exact hs r' hold
  · exact hr

/-- Settles O15: a step adds at most one response, which is well formed (`exec_response_wf`). -/
theorem everyStepKeepsOutputsWellFormed : Obligations.EveryStepKeepsOutputsWellFormed := by
  intro s s' hs h
  obtain ⟨-, rfl⟩ | ⟨b, rest, -, rfl⟩ | ⟨i, rest, -, hx⟩ := step_cases h
  · exact hs
  · exact respond_outputsOk hs ⟨nofun, nofun⟩
  · obtain ⟨c, r, hr, hwf⟩ := exec_response_wf i (s.withInput rest)
    cases hr.symm.trans hx
    exact respond_outputsOk hs hwf

end Sys2Proof.Machine
end

section
/-! PROOFS. The header codec: DECODE, ENCODE and CHECKSUM as functions of their operands, and the one cause of DECODE_ERROR (40_codec.md R90 to R104). -/

namespace Sys2Proof.Machine

/-! Decoding and encoding a header. -/

/-- Settles O20: `DECODE` accepts an encoded header with a payload that fits, and reads back the fields. -/
theorem decodeOfEncodeReturnsTheFields : Obligations.DecodeOfEncodeReturnsTheFields := by
  intro f P s t hP
  have h := decodeOk_encodeFields f P hP
  refine ⟨encodeFields f, rfl, (execDecode_ok h s).trans ?_⟩
  rw [decodeFields_encodeFields]

/-- Settles O17: the fields `DECODE` returns are the numbers on the wire. -/
theorem decodeReturnsTheHeaderFields : Obligations.DecodeReturnsTheHeaderFields := by
  intro B s hmin hmax hfirst
  have h : DecodeOk B := (decodeOk_iff B).mpr ⟨hmin, hmax, hfirst⟩
  exact ⟨decodeFields B h.1, execDecode_ok h s, decodeFields_wire B h.1⟩

/-- Settles O19: the bytes `ENCODE` returns hold the fields as numbers on the wire. -/
theorem encodeWritesEveryField : Obligations.EncodeWritesEveryField := by
  intro f s
  have hw := encodeFields_wire f []
  rw [List.append_nil] at hw
  exact ⟨rfl, encodeFields f, rfl, hw⟩

/-- Settles O23: whether a datagram is well formed, and what it decodes to, is the same in every state. -/
theorem codecCommandsArePure : Obligations.CodecCommandsArePure := by
  intro i hi
  obtain ⟨B, rfl⟩ | ⟨f, rfl⟩ | ⟨H, rfl⟩ := hi
  · by_cases h : DecodeOk B
    · exact ⟨_, _, execDecode_ok h⟩
    · exact ⟨_, _, execDecode_malformed h⟩
  · exact ⟨_, _, fun _ => rfl⟩
  · exact ⟨_, _, fun _ => rfl⟩

/-! `DECODE_ERROR`. -/

/-- The datagram a command decodes, if it decodes one (R91, R141, R143). -/
def inboundDatagram : Instr → Option Bytes
  | .decode B | .classify B | .receive _ B => some B
  | _ => none

theorem not_decodeOk_iff (B : Bytes) :
    ¬ DecodeOk B ↔ B.length < 20 ∨ 65535 < B.length ∨ B.head? ≠ some 0x45#8 := by
  rw [DecodeOk, not_and_or, not_and_or, Nat.not_le, Nat.not_le]

/-- A malformed datagram is dropped, whichever command decodes it (R144). -/
theorem exec_malformed {i : Instr} {B : Bytes} (hi : inboundDatagram i = some B) (h : ¬ DecodeOk B) (s : State) :
    exec i s = .next (s.respond ⟨.decodeError, .none, none⟩) := by
  cases i with
  | decode B => cases hi; exact execDecode_malformed h s
  | classify B => cases hi; exact execClassify_malformed h s
  | receive skip B => cases hi; exact execReceive_malformed h s
  | _ => cases hi

theorem execReceive_status_ne_decodeError (skip : Bool) {B : Bytes} (h : DecodeOk B) (s : State) :
    ∃ r, execReceive skip B s = .next (s.respond r) ∧ r.status ≠ .decodeError := by
  by_cases hl : s.cfg.localValid = true ∧ wireAddr B 16 = s.cfg.localAddr.toNat
  · rw [execReceive_local h hl]
    obtain ⟨-, hx⟩ | ⟨-, -, hx⟩ | ⟨-, -, hx⟩ := receiveLocal_cases (decodeFields B h.1) s
    · exact ⟨_, hx, nofun⟩
    · exact ⟨_, hx, nofun⟩
    · exact ⟨_, hx, nofun⟩
  · rw [execReceive_remote h hl]
    obtain ⟨-, hx⟩ | ⟨-, -, hx⟩ | ⟨nh, -, -, hx⟩ := receiveRemote_cases skip (decodeFields B h.1) s
    · exact ⟨_, hx, nofun⟩
    · exact ⟨_, hx, nofun⟩
    · exact ⟨_, hx, nofun⟩

/-- A command that decodes no malformed datagram answers another status (R172). -/
theorem exec_status_ne_decodeError {i : Instr} (hi : ∀ B, inboundDatagram i = some B → DecodeOk B) (s : State) :
    ∃ c r, exec i s = .next ((s.withCfg c).respond r) ∧ r.status ≠ .decodeError := by
  cases i with
  | decode B => exact ⟨s.cfg, _, execDecode_ok (hi B rfl) s, nofun⟩
  | encode f => exact ⟨s.cfg, _, rfl, nofun⟩
  | checksum H => exact ⟨s.cfg, _, rfl, nofun⟩
  | setRoutes E =>
    obtain ⟨c, r, hx, -, ⟨hst, -⟩ | ⟨hst, -⟩⟩ := exec_fits (.setRoutes E) s
    · exact ⟨c, r, hx, hst ▸ nofun⟩
    · exact ⟨c, r, hx, hst ▸ nofun⟩
  | lookup a =>
    obtain ⟨c, r, hx, -, ⟨hst, -⟩ | ⟨hst, -⟩⟩ := exec_fits (.lookup a) s
    · exact ⟨c, r, hx, hst ▸ nofun⟩
    · exact ⟨c, r, hx, hst ▸ nofun⟩
  | setLocalAddr a => exact ⟨_, _, rfl, nofun⟩
  | registerUl => exact ⟨_, _, rfl, nofun⟩
  | classify B => exact ⟨s.cfg, _, execClassify_ok (hi B rfl) s, nofun⟩
  | receive skip B => exact ⟨s.cfg, execReceive_status_ne_decodeError skip (hi B rfl) s⟩
  | send skip dst P =>
    obtain ⟨-, hx⟩ | ⟨nh, -, -, hx⟩ | ⟨nh, -, -, -, hx⟩ | ⟨nh, -, -, -, hx⟩ := execSend_cases skip dst P s
    · exact ⟨s.cfg, _, hx, nofun⟩
    · exact ⟨s.cfg, _, hx, nofun⟩
    · exact ⟨s.cfg, _, hx, nofun⟩
    · exact ⟨s.cfg, _, hx, nofun⟩

theorem exec_ne_decodeError {i : Instr} (hi : ∀ B, inboundDatagram i = some B → DecodeOk B) (s t : State)
    (res : Result) (ev : Option Event) : exec i s ≠ .next (t.respond ⟨.decodeError, res, ev⟩) := by
  intro h
  obtain ⟨c, r, hx, hst⟩ := exec_status_ne_decodeError hi s
  exact hst (congrArg Response.status (next_respond_inj (hx.symm.trans h)))

/-- Settles O18: a command answers `DECODE_ERROR` exactly when it decodes a malformed datagram. -/
theorem decodeErrorExactlyOnMalformedDatagrams : Obligations.DecodeErrorExactlyOnMalformedDatagrams := by
  intro B s bad
  have hbad : bad ↔ ¬ DecodeOk B := (not_decodeOk_iff B).symm
  refine ⟨fun i hi => ?_, fun i hi => exec_ne_decodeError (fun B' hB' => ?_) s⟩
  · have hB : inboundDatagram i = some B := by
      simp only [List.mem_cons, List.not_mem_nil, or_false] at hi
      obtain rfl | rfl | rfl | rfl := hi <;> rfl
    refine ⟨fun h => exec_malformed hB (hbad.mp h) s, fun h => exec_ne_decodeError (fun B' hB' => ?_) s⟩
    cases hB.symm.trans hB'
    exact not_not.mp (mt hbad.mpr h)
  · obtain ⟨hdecode, hclassify, hreceive⟩ := hi B'
    cases i with
    | decode B => cases hB'; exact absurd rfl hdecode
    | classify B => cases hB'; exact absurd rfl hclassify
    | receive skip B => cases hB'; exact absurd rfl (hreceive skip)
    | _ => cases hB'

/-! The checksum. -/

/-- Folding once at the end is adding each carry back at once (R99). -/
theorem onesSum_eq_foldl (H : Header) : onesSum H = (headerWords H).foldl onesAdd 0#16 := by
  apply BitVec.eq_of_toNat_eq
  rw [onesSum_toNat, foldl_onesAdd_toNat, ← wordSum_eq, wordSum, BitVec.toNat_ofNat, Nat.zero_mod, Nat.zero_add]

/-- Settles O21: the model's fold is the folded sum, as a number (`checksum16_toNat`) and word by word. -/
theorem checksumIsTheComplementOfTheFoldedSum : Obligations.ChecksumIsTheComplementOfTheFoldedSum := by
  intro H s
  exact ⟨rfl, checksum16 H, rfl, checksum16_toNat H, by rw [checksum16, onesSum_eq_foldl]⟩

/-- A header verifies exactly when its words fold to all ones (R102). -/
theorem checksum16_eq_zero_iff (H : Header) : checksum16 H = 0#16 ↔ foldedSum (wireSum H.toList) = 65535 := by
  have hle := foldedSum_le (wireSum H.toList)
  rw [← BitVec.toNat_inj, checksum16_toNat, BitVec.toNat_ofNat]
  omega

theorem exec_checksum_iff (H : Header) (s : State) (c : Half) :
    exec (.checksum H) s = .next (s.respond ⟨.ok, .checksum c, none⟩) ↔ checksum16 H = c := by
  refine ⟨fun h => ?_, fun h => h ▸ rfl⟩
  have hx : exec (.checksum H) s = .next (s.respond ⟨.ok, .checksum (checksum16 H), none⟩) := rfl
  cases next_respond_inj (hx.symm.trans h)
  rfl

/-- The checksum field is the sixth word of the header (R68). -/
theorem headerWords_set_ck (H : Header) (c : Half) :
    headerWords ((H.set 10 (byteAt c 1)).set 11 (byteAt c 0)) = (headerWords H).set 5 c := by
  simp [headerWords, join16_byteAt]

/-- A word written into the empty checksum field joins the sum. -/
theorem wireSum_set_ck {H : Header} (h10 : H[10] = 0#8) (h11 : H[11] = 0#8) (c : Half) :
    wireSum ((H.set 10 (byteAt c 1)).set 11 (byteAt c 0)).toList = wireSum H.toList + c.toNat := by
  have hempty : headerWords H = (headerWords H).set 5 (join16 0#8 0#8) := by simp [headerWords, h10, h11]
  have hzero : (join16 0#8 0#8).toNat = 0 := rfl
  have hlen : 5 < ((headerWords H).map BitVec.toNat).length := by simp [headerWords]
  rw [← wordSum_eq, ← wordSum_eq, wordSum, wordSum, headerWords_set_ck, hempty]
  simp only [List.set_set, List.map_set, List.sum_set, if_pos hlen, hzero]
  omega

/-- Settles O22: the checksum, written into its field, is the word that is missing from the sum. -/
theorem filledInChecksumVerifies : Obligations.FilledInChecksumVerifies := by
  intro H s
  refine ⟨(exec_checksum_iff H s _).trans (checksum16_eq_zero_iff H), fun h10 h11 => ⟨checksum16 H, rfl, ?_⟩⟩
  rw [exec_checksum_iff, checksum16_eq_zero_iff, wireSum_set_ck h10 h11, checksum16_toNat, foldedSum_complement]

end Sys2Proof.Machine
end

section
/-! PROOFS. What the engine makes of a header's bytes: the fields it never reads, the fragment word it passes on, and the sum of what it emits (40_codec.md R94, R95, R105; 42_engine.md R158). -/

namespace Sys2Proof.Machine

/-! Datagrams that agree on what is read. -/

section Agree
variable {offs : List Nat} {B B' : Bytes}

theorem agreeExcept_mono {offs' : List Nat} (hsub : offs ⊆ offs') (h : agreeExcept offs B B') :
    agreeExcept offs' B B' :=
  ⟨h.1, fun i hi => h.2 i (mt (@hsub i) hi)⟩

theorem agreeExcept_getElem (h : agreeExcept offs B B') {i : Nat} (hi : i ∉ offs) (hB : i < B.length)
    (hB' : i < B'.length) : B[i] = B'[i] := by
  have := h.2 i hi
  rwa [List.getElem?_eq_getElem hB, List.getElem?_eq_getElem hB', Option.some.injEq] at this

theorem memRead16_agree (h : agreeExcept offs B B') {off : Nat} (h0 : off ∉ offs) (h1 : off + 1 ∉ offs)
    (hB : off + 2 ≤ B.length) (hB' : off + 2 ≤ B'.length) : memRead16 B off hB = memRead16 B' off hB' :=
  congrArg₂ join16 (agreeExcept_getElem h h0 _ _) (agreeExcept_getElem h h1 _ _)

theorem memRead32_agree (h : agreeExcept offs B B') {off : Nat} (h0 : off ∉ offs) (h1 : off + 1 ∉ offs)
    (h2 : off + 2 ∉ offs) (h3 : off + 3 ∉ offs) (hB : off + 4 ≤ B.length) (hB' : off + 4 ≤ B'.length) :
    memRead32 B off hB = memRead32 B' off hB' := by
  unfold memRead32
  congr 1
  · exact agreeExcept_getElem h h0 _ _
  · exact agreeExcept_getElem h h1 _ _
  · exact agreeExcept_getElem h h2 _ _
  · exact agreeExcept_getElem h h3 _ _

theorem agreeExcept_drop (h : agreeExcept offs B B') {n : Nat} (hn : ∀ i ∈ offs, i < n) : B.drop n = B'.drop n := by
  apply List.ext_getElem?
  intro i
  rw [List.getElem?_drop, List.getElem?_drop]
  exact h.2 _ fun hi => absurd (hn _ hi) (by omega)

theorem agreeExcept_decodeOk (h : agreeExcept offs B B') (h0 : 0 ∉ offs) : DecodeOk B ↔ DecodeOk B' := by
  obtain ⟨hlen, hbytes⟩ := h
  rw [DecodeOk, DecodeOk, hlen, List.head?_eq_getElem?, List.head?_eq_getElem?, hbytes 0 h0]

/-- Outside flags and fragment offset, a datagram's fields do not depend on the words at 2, 6 and 10 (R93). -/
theorem decodeFields_agree (h : agreeExcept [2, 3, 6, 7, 10, 11] B B') (hB : headerLen ≤ B.length)
    (hB' : headerLen ≤ B'.length) :
    decodeFields B' hB' = { decodeFields B hB with
      flags := (decodeFields B' hB').flags, frag := (decodeFields B' hB').frag } := by
  have h20 : 20 ≤ B.length := hB
  have h20' : 20 ≤ B'.length := hB'
  have h1 : B[1] = B'[1] := agreeExcept_getElem h (by decide) _ _
  have h4 := memRead16_agree (off := 4) h (by decide) (by decide) (by omega) (by omega)
  have h8 : B[8] = B'[8] := agreeExcept_getElem h (by decide) _ _
  have h9 : B[9] = B'[9] := agreeExcept_getElem h (by decide) _ _
  have h12 := memRead32_agree (off := 12) h (by decide) (by decide) (by decide) (by decide) (by omega) (by omega)
  have h16 := memRead32_agree (off := 16) h (by decide) (by decide) (by decide) (by decide) (by omega) (by omega)
  have hpayload : B.drop headerLen = B'.drop headerLen := agreeExcept_drop h (by decide)
  simp only [decodeFields, h1, h4, h8, h9, h12, h16, hpayload]

/-- The total length and the checksum are not among the fields (R94). -/
theorem decodeFields_eq_of_agree (h : agreeExcept [2, 3, 10, 11] B B') (hB : headerLen ≤ B.length)
    (hB' : headerLen ≤ B'.length) : decodeFields B hB = decodeFields B' hB' := by
  have hw := memRead16_agree (off := 6) h (by decide) (by decide) (Nat.le_trans (by decide) hB)
    (Nat.le_trans (by decide) hB')
  rw [decodeFields_agree (agreeExcept_mono (by simp) h) hB hB']
  simp only [decodeFields, hw]

/-- The three commands read a well-formed datagram through its fields alone. -/
theorem exec_eq_of_decodeFields_eq (h : DecodeOk B) (h' : DecodeOk B')
    (hd : decodeFields B h.1 = decodeFields B' h'.1) (skip : Bool) (s : State) :
    exec (.receive skip B) s = exec (.receive skip B') s ∧ exec (.decode B) s = exec (.decode B') s ∧
    exec (.classify B) s = exec (.classify B') s := by
  have hdst : memRead32 B 16 h.1 = memRead32 B' 16 h'.1 := congrArg DecodedFields.dst hd
  refine ⟨?_, ?_, ?_⟩
  · simp only [exec, execReceive, dif_pos h, dif_pos h', hd]
  · simp only [exec, execDecode_ok h, execDecode_ok h', hd]
  · simp only [exec, execClassify_ok h, execClassify_ok h', hdst]

end Agree

/-- Settles O38: both datagrams are malformed, or both decode to the same fields. -/
theorem inboundChecksumAndLengthAreNeverRead : Obligations.InboundChecksumAndLengthAreNeverRead := by
  intro skip B B' s hagree
  have hok : DecodeOk B ↔ DecodeOk B' := agreeExcept_decodeOk hagree (by decide)
  by_cases h : DecodeOk B
  · exact exec_eq_of_decodeFields_eq h (hok.mp h) (decodeFields_eq_of_agree hagree _ _) skip s
  · have h' := mt hok.mpr h
    have hx (i i' : Instr) (hi : inboundDatagram i = some B) (hi' : inboundDatagram i' = some B') :
        exec i s = exec i' s := (exec_malformed hi h s).trans (exec_malformed hi' h' s).symm
    exact ⟨hx _ _ rfl rfl, hx _ _ rfl rfl, hx _ _ rfl rfl⟩

/-! Fragments. -/

/-- Router mode looks at neither flags nor fragment offset: it drops both datagrams for one reason, or sends
both to one next hop (R95). -/
theorem receiveRemote_fragment (skip : Bool) (d : DecodedFields) (flags : BitVec 3) (frag : BitVec 13) (s : State) :
    receiveRemote skip d s = receiveRemote skip { d with flags := flags, frag := frag } s ∨
    ∃ f nh,
      receiveRemote skip d s = .next (s.respond ⟨.forwarded, .none, some (linkSend skip f d.payload nh)⟩) ∧
      receiveRemote skip { d with flags := flags, frag := frag } s = .next (s.respond ⟨.forwarded, .none,
        some (linkSend skip { f with flags := flags, frag := frag } d.payload nh)⟩) := by
  simp only [receiveRemote]
  split
  · exact .inl rfl
  · split
    · exact .inl rfl
    · exact .inr ⟨_, _, rfl, rfl⟩

/-- Headers with the same fields but flags, fragment offset and checksum differ in those words alone (R96). -/
theorem encodeFields_agree (f : HeaderFields) (flags : BitVec 3) (frag : BitVec 13) (ck : Half) (P : Bytes) :
    agreeExcept [6, 7, 10, 11] ((encodeFields f).toList ++ P)
      ((encodeFields { f with flags := flags, frag := frag, ck := ck }).toList ++ P) := by
  refine ⟨by simp, fun i hi => ?_⟩
  obtain hlt | hge := Nat.lt_or_ge i 20
  · interval_cases i <;> simp [encodeFields_toList, be16, be32] at hi ⊢
  · rw [List.getElem?_append_right (by simpa using hge), List.getElem?_append_right (by simpa using hge)]
    simp

/-- So do the datagrams that are sent (R155). -/
theorem sealHeader_agree (skip : Bool) (f : HeaderFields) (flags : BitVec 3) (frag : BitVec 13) (P : Bytes) :
    agreeExcept [6, 7, 10, 11] ((sealHeader skip f).toList ++ P)
      ((sealHeader skip { f with flags := flags, frag := frag }).toList ++ P) := by
  obtain ⟨ck, hs, -⟩ := sealHeader_spec skip f
  obtain ⟨ck', hs', -⟩ := sealHeader_spec skip { f with flags := flags, frag := frag }
  rw [hs, hs']
  exact encodeFields_agree { f with ck := ck } flags frag ck' P

/-- Settles O39: neither mode looks at flags or fragment offset, and router mode copies them. -/
theorem fragmentsAreWholeDatagrams : Obligations.FragmentsAreWholeDatagrams := by
  intro skip B B' s h hagree
  have h' : DecodeOk B' := (agreeExcept_decodeOk hagree (by decide)).mp h
  have hd := decodeFields_agree (agreeExcept_mono (by simp) hagree) h.1 h'.1
  obtain ⟨-, -, -, hflags, hfrag, -, -, -, hdst, -⟩ := decodeFields_wire B' h'.1
  obtain ⟨-, -, -, -, -, -, -, -, hdst₀, -⟩ := decodeFields_wire B h.1
  have hdst' : wireAddr B' 16 = wireAddr B 16 := by rw [← hdst, ← hdst₀, hd]
  generalize (decodeFields B' h'.1).flags = flags, (decodeFields B' h'.1).frag = frag at hd hflags hfrag
  refine ⟨⟨decodeFields B h.1, flags, frag, hflags, hfrag, execDecode_ok h s, hd ▸ execDecode_ok h' s⟩, ?_⟩
  simp only [exec]
  by_cases hl : s.cfg.localValid = true ∧ wireAddr B 16 = s.cfg.localAddr.toNat
  · rw [execReceive_local h hl, execReceive_local h' (hdst'.symm ▸ hl), hd]
    exact .inl rfl
  · rw [execReceive_remote h hl, execReceive_remote h' (hdst'.symm ▸ hl), hd]
    obtain heq | ⟨f, nh, hx, hx'⟩ := receiveRemote_fragment skip (decodeFields B h.1) flags frag s
    · exact .inl heq
    · obtain ⟨-, -, -, -, h6, -⟩ := sealHeader_wire skip { f with flags := flags, frag := frag }
        (decodeFields B h.1).payload _ rfl
      refine .inr ⟨_, _, nh, hx, hx', sealHeader_agree skip f flags frag _, ?_⟩
      rw [h6, hflags, hfrag]
      exact Nat.div_add_mod _ _

/-! The sum of what is emitted. -/

theorem sealHeader_sums (f : HeaderFields) (P : Bytes) :
    20 ≤ ((sealHeader false f).toList ++ P).length ∧
    foldedSum (wireSum ((sealHeader false f).toList ++ P)) = 65535 := by
  obtain ⟨-, -, -, -, -, -, -, -, -, -, hck⟩ := sealHeader_wire false f P _ rfl
  exact ⟨by simp, (hck rfl).2⟩

/-- Settles O44: of the five things an operation can do, only forwarding and sending emit a `LinkSend`, and
both seal its header. -/
theorem emittedHeadersSumToAllOnes : Obligations.EmittedHeadersSumToAllOnes := by
  intro i s t st res out nh hi h
  obtain ⟨_, _, hx, -⟩ | ⟨c, hx, -⟩ | ⟨_, B, _, -, -, -, -, hx⟩ | ⟨skip, B, nh', _, rfl, -, -, -, hx⟩ |
    ⟨skip, dst, P, nh', rfl, -, -, -, hx⟩ := exec_cases i s
  · cases next_respond_inj (hx.symm.trans h)
  · cases next_respond_inj (hx.symm.trans h)
  · cases next_respond_inj (hx.symm.trans h)
  · cases next_respond_inj (hx.symm.trans h)
    obtain ⟨_, ⟨⟩⟩ | ⟨_, _, ⟨⟩⟩ := hi
    exact sealHeader_sums _ _
  · cases next_respond_inj (hx.symm.trans h)
    obtain ⟨_, ⟨⟩⟩ | ⟨_, _, ⟨⟩⟩ := hi
    exact sealHeader_sums _ _

end Sys2Proof.Machine
end

section
/-! PROOFS. The forwarding table: the mask and containment, what SET_ROUTES refuses and replaces, and what LOOKUP finds (41_forwarding.md R111 to R118). -/

namespace Sys2Proof.Machine

/-! Matching. -/

/-- Settles O24: `mask_getLsbD` as an equivalence. -/
theorem maskHasThePrefixBits : Obligations.MaskHasThePrefixBits := by
  intro p i hp hi
  rw [mask_getLsbD hp hi, decide_eq_true_iff]

/-- A `/0` entry compares no bit (R112). -/
theorem inPrefix_of_plen_zero {e : RouteEntry} (a : Addr) (h : e.plen = 0#6) : inPrefix e a := by
  have hzero : e.plen.toNat = 0 := by rw [h]; rfl
  rw [inPrefix, hzero, Nat.sub_zero, Nat.div_eq_of_lt a.isLt, Nat.div_eq_of_lt e.net.isLt]

/-- A `/32` entry compares every bit (R112). -/
theorem inPrefix_iff_of_plen_32 {e : RouteEntry} (a : Addr) (h : e.plen = 32#6) : inPrefix e a ↔ a = e.net := by
  have h32 : e.plen.toNat = 32 := by rw [h]; rfl
  rw [inPrefix, h32, Nat.sub_self, Nat.pow_zero, Nat.div_one, Nat.div_one, BitVec.toNat_inj]

/-- Settles O25: the masked comparison is `inPrefix`, which at `/0` and `/32` compares no bit and every bit. -/
theorem containsComparesThePrefixBits : Obligations.ContainsComparesThePrefixBits := by
  intro e a hlegal
  have hcontains := contains_iff a hlegal
  exact ⟨hcontains, fun h => hcontains.mpr (inPrefix_of_plen_zero a h),
    fun h => hcontains.trans (inPrefix_iff_of_plen_32 a h)⟩

/-! SET_ROUTES. -/

/-- A list that is too long is refused whatever its entries are (R114). -/
theorem routesError_capacity {capacity : Nat} {E : List RouteEntry} (h : capacity < E.length) :
    routesError capacity E = some (capacity, .capacity) := if_pos h

/-- A list that fits is refused at its lowest entry out of range (R114). -/
theorem routesError_prefixRange {capacity : Nat} {E : List RouteEntry} (hlen : E.length ≤ capacity) {i : Nat}
    (hi : i < E.length) (hbad : ¬ RouteLegal E[i]) (hlow : ∀ (j : Nat) (hj : j < i), RouteLegal E[j]) :
    routesError capacity E = some (i, .prefixRange) := by
  have hfirst : badPrefix E = some i := by
    rw [badPrefix, List.findIdx?_eq_some_iff_getElem]
    exact ⟨hi, by simpa using hbad, fun j hj => by simpa using hlow j hj⟩
  rw [routesError, if_neg (Nat.not_lt.mpr hlen), hfirst, Option.map_some]

/-- Settles O26: `routesError` is the capacity, the lowest entry out of range, or nothing, and `SET_ROUTES`
refuses the list or replaces the table by it. -/
theorem setRoutesReplacesOrRefusesTheWholeList : Obligations.SetRoutesReplacesOrRefusesTheWholeList := by
  intro E s
  refine ⟨rfl, fun hlen => ?tooLong, fun i hi hlen hbad hlow => ?outOfRange, fun hlen hE => ?accepted, rfl, rfl⟩
  case tooLong => exact execSetRoutes_refused (routesError_capacity hlen)
  case outOfRange => exact execSetRoutes_refused (routesError_prefixRange hlen hi (Nat.not_le.mpr hbad) hlow)
  case accepted => exact execSetRoutes_accepted (routesError_none.mpr ⟨hlen, hE⟩)

/-! LOOKUP. -/

/-- Among the entries that contain an address one is best, if any contains it (R116, R118). -/
theorem exists_bestAt {T : List RouteEntry} {a : Addr} (hT : ∀ e ∈ T, RouteLegal e)
    (h : ∃ e ∈ T, inPrefix e a) : ∃ i e, bestAt T a i ∧ T[i]? = some e := by
  obtain ⟨i, e, hbest, he, -⟩ | ⟨hnone, -⟩ := lpm_cases a hT
  · exact ⟨i, e, hbest, he⟩
  · obtain ⟨e, he, hin⟩ := h
    exact absurd hin (hnone e he)

/-- Settles O27: `LOOKUP` answers what `Lpm` finds, the next hop of the best entry or no route. -/
theorem lookupFindsTheFirstLongestPrefix : Obligations.LookupFindsTheFirstLongestPrefix := by
  intro a s hT
  exact ⟨rfl, exists_bestAt hT, fun i e hbest he => execLookup_route (lpm_of_bestAt hT hbest he),
    fun hnone => execLookup_noRoute (lpm_of_none hT hnone)⟩

end Sys2Proof.Machine
end

section
/-! PROOFS. The engine's configuration, classification, and host mode (42_engine.md R131 to R148). -/

namespace Sys2Proof.Machine

/-! Configuration. -/

/-- Settles O28: the write is `execSetLocalAddr`'s, by computation. -/
theorem setLocalAddrAssignsTheAddress : Obligations.SetLocalAddrAssignsTheAddress :=
  fun _ _ => ⟨rfl, rfl⟩

/-- Settles O29: the write is `execRegisterUl`'s, by computation. -/
theorem registerUlRegisters : Obligations.RegisterUlRegisters :=
  fun _ => ⟨rfl, rfl⟩

/-! Classification. -/

theorem execClassify_remote {B : Bytes} (h : DecodeOk B) {s : State}
    (hl : ¬ (s.cfg.localValid = true ∧ wireAddr B 16 = s.cfg.localAddr.toNat)) :
    execClassify B s = .next (s.respond ⟨.ok, .dispatch .forward, none⟩) := by
  rw [execClassify_ok h, classify_forward (by rwa [memRead32_toNat])]

/-- Settles O30: the class is that of the destination address, read as a number. -/
theorem classifyComparesTheDestination : Obligations.ClassifyComparesTheDestination :=
  fun _ _ h => ⟨execClassify_local h, execClassify_remote h, rfl, rfl⟩

/-! Host mode. -/

theorem decodeFields_proto_eq_iff {B : Bytes} (h : headerLen ≤ B.length) (p : Byte) :
    (decodeFields B h).proto = p ↔ wireByte B 9 = p.toNat := by
  obtain ⟨-, -, -, -, -, -, hproto, -⟩ := decodeFields_wire B h
  rw [← hproto, BitVec.toNat_inj]

section HostMode
variable {skip : Bool} {B : Bytes} {s : State}

/-- Another protocol is dropped whether or not an upper layer is registered (R146). -/
theorem execReceive_unsupported (h : DecodeOk B)
    (hl : s.cfg.localValid = true ∧ wireAddr B 16 = s.cfg.localAddr.toNat)
    (hp : wireByte B 9 ≠ s.config.supportedProto.toNat) :
    execReceive skip B s = .next (s.respond ⟨.unsupportedProtocol, .none, none⟩) := by
  have hd := mt (decodeFields_proto_eq_iff h.1 s.config.supportedProto).mp hp
  rw [execReceive_local h hl]
  obtain ⟨-, hx⟩ | ⟨hd', -⟩ | ⟨hd', -⟩ := receiveLocal_cases (decodeFields B h.1) s
  · exact hx
  · exact absurd hd' hd
  · exact absurd hd' hd

/-- The supported protocol is dropped when no upper layer is registered (R147). -/
theorem execReceive_noConsumer (h : DecodeOk B)
    (hl : s.cfg.localValid = true ∧ wireAddr B 16 = s.cfg.localAddr.toNat)
    (hp : wireByte B 9 = s.config.supportedProto.toNat) (hu : s.cfg.ulReg = false) :
    execReceive skip B s = .next (s.respond ⟨.noConsumer, .none, none⟩) := by
  have hd := (decodeFields_proto_eq_iff h.1 s.config.supportedProto).mpr hp
  rw [execReceive_local h hl]
  obtain ⟨hd', -⟩ | ⟨-, -, hx⟩ | ⟨-, hu', -⟩ := receiveLocal_cases (decodeFields B h.1) s
  · exact absurd hd hd'
  · exact hx
  · cases hu.symm.trans hu'

end HostMode

/-- Settles O31: `execReceive_delivers`, with the addresses as numbers on the wire. -/
theorem receiveDeliversToTheUpperLayer : Obligations.ReceiveDeliversToTheUpperLayer := by
  intro skip B s h hv ha hp hu
  obtain ⟨-, -, -, -, -, -, -, hsrc, hdst, -⟩ := decodeFields_wire B h.1
  exact ⟨_, _, hsrc, hdst, execReceive_delivers h ⟨hv, ha⟩ hp hu⟩

/-- Settles O32: the protocol is compared before the registration is looked at. -/
theorem receiveDropsWithoutAConsumer : Obligations.ReceiveDropsWithoutAConsumer :=
  fun _ _ _ h hv ha => ⟨execReceive_unsupported h ⟨hv, ha⟩, execReceive_noConsumer h ⟨hv, ha⟩⟩

/-- Of a datagram's fields host mode reads these four (R145 to R148). -/
theorem receiveLocal_congr {d d' : DecodedFields} (hproto : d.proto = d'.proto) (hsrc : d.src = d'.src)
    (hdst : d.dst = d'.dst) (hpayload : d.payload = d'.payload) (s : State) :
    receiveLocal d s = receiveLocal d' s := by
  simp only [receiveLocal, hproto, hsrc, hdst, hpayload]

theorem decodeFields_dst_toNat {B : Bytes} (h : headerLen ≤ B.length) :
    (decodeFields B h).dst.toNat = wireAddr B 16 :=
  memRead32_toNat B 16 h

/-- What stands after the checksum does not depend on the bytes before it (R93). -/
theorem decodeFields_agree_tail {offs : List Nat} {B B' : Bytes} (hagree : agreeExcept offs B B')
    (hoffs : ∀ i ∈ offs, i < 12) (h : headerLen ≤ B.length) (h' : headerLen ≤ B'.length) :
    (decodeFields B h).src = (decodeFields B' h').src ∧ (decodeFields B h).dst = (decodeFields B' h').dst ∧
    (decodeFields B h).payload = (decodeFields B' h').payload := by
  have hout {i : Nat} (hi : 12 ≤ i) : i ∉ offs := fun hmem => Nat.not_lt.mpr hi (hoffs i hmem)
  refine ⟨?_, ?_, agreeExcept_drop hagree fun i hi => Nat.lt_trans (hoffs i hi) (by decide)⟩
  · exact memRead32_agree hagree (hout (by decide)) (hout (by decide)) (hout (by decide)) (hout (by decide))
      (Nat.le_trans (by decide) h) (Nat.le_trans (by decide) h')
  · exact memRead32_agree hagree (hout (by decide)) (hout (by decide)) (hout (by decide)) (hout (by decide)) h h'

/-- Settles O33: none of the five bytes is in a field that host mode reads (`receiveLocal_congr`). -/
theorem hostModeIgnoresTtlAndChecksum : Obligations.HostModeIgnoresTtlAndChecksum := by
  intro skip skip' B B' s h hv ha hagree
  have h' : DecodeOk B' := (agreeExcept_decodeOk hagree (by decide)).mp h
  have hproto : (decodeFields B h.1).proto = (decodeFields B' h'.1).proto :=
    agreeExcept_getElem hagree (by decide) _ _
  obtain ⟨hsrc, hdst, hpayload⟩ := decodeFields_agree_tail hagree (by decide) h.1 h'.1
  have ha' : wireAddr B' 16 = s.cfg.localAddr.toNat := by
    rw [← ha, ← decodeFields_dst_toNat h.1, hdst, decodeFields_dst_toNat h'.1]
  simp only [exec]
  rw [execReceive_local h ⟨hv, ha⟩, execReceive_local h' ⟨hv, ha'⟩]
  exact receiveLocal_congr hproto hsrc hdst hpayload s

end Sys2Proof.Machine
end

section
/-! PROOFS. Router mode: the two drops, the datagram that is sent on, byte by byte, and the end of every chain of forwards (42_engine.md R149 to R157; 60_exceptions.md R187). -/

namespace Sys2Proof.Machine

/-! Bytes told apart by their numbers. -/

theorem wireByte_lt (B : Bytes) (i : Nat) : wireByte B i < 256 := (B.getD i 0#8).isLt

theorem wireHalf_eq_iff {A B : Bytes} {i j : Nat} :
    wireHalf A i = wireHalf B j ↔ wireByte A i = wireByte B j ∧ wireByte A (i + 1) = wireByte B (j + 1) := by
  have hA := wireByte_lt A (i + 1)
  have hB := wireByte_lt B (j + 1)
  simp only [wireHalf]
  omega

theorem wireAddr_eq_iff {A B : Bytes} {i j : Nat} :
    wireAddr A i = wireAddr B j ↔ wireHalf A i = wireHalf B j ∧ wireHalf A (i + 2) = wireHalf B (j + 2) := by
  have hA := wireHalf_le A (i + 2)
  have hB := wireHalf_le B (j + 2)
  simp only [wireAddr]
  omega

theorem wireByte_drop (B : Bytes) (n i : Nat) : wireByte (B.drop n) i = wireByte B (n + i) := by
  simp only [wireByte, List.getD_eq_getElem?_getD, List.getElem?_drop]

theorem getElem?_eq_iff_wireByte {A B : Bytes} (hlen : A.length = B.length) (i : Nat) :
    A[i]? = B[i]? ↔ wireByte A i = wireByte B i := by
  by_cases hi : i < A.length
  · have hi' : i < B.length := hlen ▸ hi
    rw [List.getElem?_eq_getElem hi, List.getElem?_eq_getElem hi', wireByte_getElem A i hi,
      wireByte_getElem B i hi', Option.some.injEq, BitVec.toNat_inj]
  · have hA : A[i]? = none := List.getElem?_eq_none (Nat.not_lt.mp hi)
    have hB : B[i]? = none := List.getElem?_eq_none (hlen ▸ Nat.not_lt.mp hi)
    simp only [wireByte, List.getD_eq_getElem?_getD, hA, hB]

theorem agreeExcept_iff_wireByte {offs : List Nat} {A B : Bytes} :
    agreeExcept offs A B ↔ A.length = B.length ∧ ∀ i, i ∉ offs → wireByte A i = wireByte B i :=
  and_congr_right fun hlen => forall₂_congr fun i _ => getElem?_eq_iff_wireByte hlen i

/-! The three outcomes. -/

theorem decodeFields_ttl_toNat {B : Bytes} (h : headerLen ≤ B.length) :
    (decodeFields B h).ttl.toNat = wireByte B 8 := by
  obtain ⟨-, -, -, -, -, httl, -⟩ := decodeFields_wire B h
  exact httl

/-- The datagram that router mode hands to the link layer (R154, R155). -/
def forwarded (skip : Bool) (d : DecodedFields) : Bytes :=
  (sealHeader skip (forwardFields d (BitVec.ofInt 8 (decrementedTtl d.ttl)))).toList ++ d.payload

section RouterMode
variable {skip : Bool} {B : Bytes} {s : State} (h : DecodeOk B)
  (hl : ¬ (s.cfg.localValid = true ∧ wireAddr B 16 = s.cfg.localAddr.toNat))
include h hl

/-- The TTL is looked at before the table (R151, R152). -/
theorem execReceive_expired (ht : wireByte B 8 ≤ 1) :
    execReceive skip B s = .next (s.respond ⟨.ttlExpired, .none, none⟩) := by
  rw [← decodeFields_ttl_toNat h.1] at ht
  rw [execReceive_remote h hl]
  obtain ⟨-, hx⟩ | ⟨ht', -⟩ | ⟨_, ht', -⟩ := receiveRemote_cases skip (decodeFields B h.1) s
  · exact hx
  · exact absurd ht (Nat.not_le.mpr ht')
  · exact absurd ht (Nat.not_le.mpr ht')

/-- No route (R153). -/
theorem execReceive_noRoute (ht : 2 ≤ wireByte B 8)
    (hr : lpm s.cfg.routes (decodeFields B h.1).dst = .noRoute) :
    execReceive skip B s = .next (s.respond ⟨.noRoute, .none, none⟩) := by
  rw [← decodeFields_ttl_toNat h.1] at ht
  rw [execReceive_remote h hl]
  obtain ⟨ht', -⟩ | ⟨-, -, hx⟩ | ⟨_, -, hr', -⟩ := receiveRemote_cases skip (decodeFields B h.1) s
  · exact absurd ht (Nat.not_le.mpr (Nat.lt_succ_of_le ht'))
  · exact hx
  · cases hr.symm.trans hr'

/-- A route, and a TTL that has not expired (R156). -/
theorem execReceive_forwards (ht : 2 ≤ wireByte B 8) {nh : Addr}
    (hr : lpm s.cfg.routes (decodeFields B h.1).dst = .route nh) :
    execReceive skip B s = .next (s.respond
      ⟨.forwarded, .none, some (.linkSend (forwarded skip (decodeFields B h.1)) nh)⟩) := by
  rw [← decodeFields_ttl_toNat h.1] at ht
  rw [execReceive_remote h hl]
  obtain ⟨ht', -⟩ | ⟨-, hr', -⟩ | ⟨nh', -, hr', hx⟩ := receiveRemote_cases skip (decodeFields B h.1) s
  · exact absurd ht (Nat.not_le.mpr (Nat.lt_succ_of_le ht'))
  · cases hr.symm.trans hr'
  · cases hr.symm.trans hr'
    exact hx

end RouterMode

/-- Settles O34: router mode looks at the TTL first. -/
theorem receiveDropsExpiredTtl : Obligations.ReceiveDropsExpiredTtl :=
  fun _ _ _ h hl ht => execReceive_expired h hl ht

/-- Settles O35: no entry contains the destination address, so that the scan finds none. -/
theorem receiveDropsWithoutARoute : Obligations.ReceiveDropsWithoutARoute :=
  fun _ _ _ h hl ht hT hnone => execReceive_noRoute h hl ht
    (lpm_of_none hT fun e he => hnone e _ he (decodeFields_dst_toNat h.1))

/-! The datagram that is sent on. -/

section Forwarded
variable (skip : Bool) {B : Bytes} (h : DecodeOk B)

theorem forwarded_length : (forwarded skip (decodeFields B h.1)).length = B.length := by
  rw [forwarded, List.length_append, Vector.length_toList, decodeFields_payload_length h]

/-- The total length is the size of what is sent (R154). -/
theorem forwarded_totalLength : wireHalf (forwarded skip (decodeFields B h.1)) 2 = B.length := by
  obtain ⟨-, -, -, htotal⟩ : WholeDatagram (forwarded skip (decodeFields B h.1)) :=
    sealHeader_wholeDatagram skip rfl (decodeFields_payload_fits h)
  rw [htotal, forwarded_length skip h]

/-- The TTL is one less than the received one (R151). -/
theorem forwarded_ttl (ht : 2 ≤ wireByte B 8) :
    wireByte (forwarded skip (decodeFields B h.1)) 8 + 1 = wireByte B 8 := by
  obtain ⟨-, -, -, -, -, httl, -⟩ := sealHeader_wire skip _ _ (forwarded skip (decodeFields B h.1)) rfl
  have hdec := decrementedTtl_toNat (ttl := (decodeFields B h.1).ttl) (by rwa [decodeFields_ttl_toNat])
  rw [decodeFields_ttl_toNat] at hdec
  rw [httl, forwardFields, hdec]
  exact Nat.sub_add_cancel (Nat.le_of_lt ht)

theorem forwarded_drop : (forwarded skip (decodeFields B h.1)).drop 20 = B.drop 20 :=
  List.drop_left' Vector.length_toList

/-- Every byte outside total length, TTL and checksum is the received one: in the header because the fields
are, and after it because the payload is (R154). -/
theorem agreeExcept_forwarded : agreeExcept [2, 3, 8, 10, 11] B (forwarded skip (decodeFields B h.1)) := by
  rw [agreeExcept_iff_wireByte]
  refine ⟨(forwarded_length skip h).symm, fun i hi => ?_⟩
  obtain hlt | hge := Nat.lt_or_ge i 20
  case inl =>
    obtain ⟨-, -, hfirst⟩ := (decodeOk_iff B).mp h
    obtain ⟨ddscp, decn, dident, dflags, dfrag, -, dproto, dsrc, ddst, -⟩ := decodeFields_wire B h.1
    obtain ⟨w0, w1, -, w4, w6, -, w9, w12, w16, -⟩ :=
      sealHeader_wire skip _ _ (forwarded skip (decodeFields B h.1)) rfl
    generalize forwarded skip (decodeFields B h.1) = out at *
    simp only [forwardFields, ddscp, decn, dident, dflags, dfrag, dproto, dsrc, ddst] at w1 w4 w6 w9 w12 w16
    rw [Nat.div_add_mod] at w1
    have w6 : wireHalf out 6 = wireHalf B 6 := w6.trans (Nat.div_add_mod _ _)
    simp only [wireAddr_eq_iff, wireHalf_eq_iff, Nat.reduceAdd] at w4 w6 w12 w16
    simp only [List.mem_cons, List.not_mem_nil, or_false, not_or] at hi
    interval_cases i <;> omega
  case inr =>
    obtain ⟨j, rfl⟩ := Nat.exists_eq_add_of_le hge
    rw [← wireByte_drop, ← wireByte_drop, forwarded_drop skip h]

/-- The protocol is copied (R157). -/
theorem forwarded_proto : wireByte (forwarded skip (decodeFields B h.1)) 9 = wireByte B 9 := by
  obtain ⟨-, hbytes⟩ := agreeExcept_iff_wireByte.mp (agreeExcept_forwarded skip h)
  exact (hbytes 9 (by decide)).symm

end Forwarded

/-- Settles O36: `execReceive_forwards`, and what `forwarded` is byte by byte. -/
theorem forwardChangesOnlyTtlLengthAndChecksum : Obligations.ForwardChangesOnlyTtlLengthAndChecksum := by
  intro skip B s i e dst h hl ht hT hdst hbest he
  obtain rfl : dst = (decodeFields B h.1).dst :=
    BitVec.eq_of_toNat_eq (hdst.trans (decodeFields_dst_toNat h.1).symm)
  obtain ⟨-, -, -, -, -, -, -, -, -, hzero, hck⟩ :=
    sealHeader_wire skip _ _ (forwarded skip (decodeFields B h.1)) rfl
  exact ⟨_, execReceive_forwards h hl ht (lpm_of_bestAt hT hbest he), agreeExcept_forwarded skip h,
    forwarded_ttl skip h ht, forwarded_totalLength skip h, hzero, fun hs => (hck hs).1⟩

/-! The protocol. -/

/-- Datagrams that differ in the protocol are sent on as datagrams that differ in it and in the checksum:
elsewhere each is what was received, but for the total length and the TTL, which depend on the size and the
received TTL alone. -/
theorem forwarded_agree {B B' : Bytes} (h : DecodeOk B) (h' : DecodeOk B') (hagree : agreeExcept [9] B B')
    (skip : Bool) (ht : 2 ≤ wireByte B 8) :
    agreeExcept [9, 10, 11] (forwarded skip (decodeFields B h.1)) (forwarded skip (decodeFields B' h'.1)) := by
  obtain ⟨hlen, hbytes⟩ := agreeExcept_iff_wireByte.mp hagree
  obtain ⟨hsize, hkept⟩ := agreeExcept_iff_wireByte.mp (agreeExcept_forwarded skip h)
  obtain ⟨hsize', hkept'⟩ := agreeExcept_iff_wireByte.mp (agreeExcept_forwarded skip h')
  have h8 : wireByte B 8 = wireByte B' 8 := hbytes 8 (by decide)
  have httl := forwarded_ttl skip h ht
  have httl' := forwarded_ttl skip h' (h8 ▸ ht)
  obtain ⟨h2, h3⟩ := wireHalf_eq_iff.mp
    ((forwarded_totalLength skip h).trans (hlen.trans (forwarded_totalLength skip h').symm))
  refine agreeExcept_iff_wireByte.mpr ⟨hsize.symm.trans (hlen.trans hsize'), fun i hi => ?_⟩
  by_cases hchanged : i ∈ [2, 3, 8]
  · simp only [List.mem_cons, List.not_mem_nil, or_false] at hchanged
    obtain rfl | rfl | rfl := hchanged
    · exact h2
    · exact h3
    · omega
  · have hsent : i ∉ [2, 3, 8, 10, 11] := by grind
    have hproto : i ∉ [9] := by grind
    rw [← hkept i hsent, ← hkept' i hsent, hbytes i hproto]

/-- Settles O37: both datagrams have the same TTL and destination, and router mode reads no more of them and
nothing of `UL_REG` to choose its outcome. -/
theorem routerModeIgnoresProtocolAndRegistration : Obligations.RouterModeIgnoresProtocolAndRegistration := by
  intro skip B B' s u h hl hagree
  have h' : DecodeOk B' := (agreeExcept_decodeOk hagree (by decide)).mp h
  obtain ⟨-, hbytes⟩ := agreeExcept_iff_wireByte.mp hagree
  have h8 : wireByte B 8 = wireByte B' 8 := hbytes 8 (by decide)
  obtain ⟨-, hdst, -⟩ := decodeFields_agree_tail hagree (by decide) h.1 h'.1
  have hl' : ¬ (s.cfg.localValid = true ∧ wireAddr B' 16 = s.cfg.localAddr.toNat) := by
    rwa [← decodeFields_dst_toNat h'.1, ← hdst, decodeFields_dst_toNat h.1]
  simp only [exec]
  obtain ht | ht := Nat.lt_or_ge 1 (wireByte B 8)
  case inr =>
    exact ⟨.ttlExpired, none, none, execReceive_expired h hl ht, execReceive_expired h' hl' (h8 ▸ ht),
      .inl ⟨rfl, rfl, rfl⟩⟩
  cases hr : lpm s.cfg.routes (decodeFields B h.1).dst with
  | noRoute =>
    exact ⟨.noRoute, none, none, execReceive_noRoute h hl ht hr,
      execReceive_noRoute h' hl' (h8 ▸ ht) (hdst ▸ hr), .inr (.inl ⟨rfl, rfl, rfl⟩)⟩
  | route nh =>
    refine ⟨.forwarded, _, _, execReceive_forwards h hl ht hr, execReceive_forwards (s := s.withCfg
      { s.cfg with ulReg := u }) h' hl' (h8 ▸ ht) (hdst ▸ hr), .inr (.inr ⟨_, _, nh, rfl, rfl, rfl, ?_⟩)⟩
    exact ⟨forwarded_proto skip h, forwarded_proto skip h', forwarded_agree h h' hagree skip ht,
      fun heq => by subst heq; rfl⟩

/-! Chains of forwards. -/

/-- Each forward takes one from the TTL, and leaves at least one (R151). -/
theorem forwardsTo_ttl {B B' : Bytes} (h : forwardsTo B B') :
    wireByte B' 8 + 1 = wireByte B 8 ∧ 1 ≤ wireByte B' 8 := by
  obtain ⟨s, skip, nh, h⟩ := h
  obtain ⟨_, _, hx, -⟩ | ⟨_, hx, -⟩ | ⟨_, _, _, -, -, -, -, hx⟩ | ⟨_, _, _, hok, hi, -, ht, -, hx⟩ |
    ⟨_, _, _, _, hi, -⟩ := exec_cases (.receive skip B) s
  · cases next_respond_inj (hx.symm.trans h)
  · cases next_respond_inj (hx.symm.trans h)
  · cases next_respond_inj (hx.symm.trans h)
  · cases hi
    cases next_respond_inj (hx.symm.trans h)
    rw [decodeFields_ttl_toNat] at ht
    have httl := forwarded_ttl skip hok ht
    exact ⟨httl, Nat.le_of_succ_le_succ (Nat.le_trans ht (Nat.le_of_eq httl.symm))⟩
  · cases hi

/-- After a datagram, at most as many forwards as its TTL less one. -/
theorem chain_length_le_ttl {B : Bytes} {hops : List Bytes} (h : (B :: hops).IsChain forwardsTo) :
    hops.length ≤ wireByte B 8 - 1 := by
  induction hops generalizing B with
  | nil => exact Nat.zero_le _
  | cons B' hops ih =>
    obtain ⟨hstep, hrest⟩ := List.isChain_cons_cons.mp h
    obtain ⟨httl, hpos⟩ := forwardsTo_ttl hstep
    have hle := ih hrest
    rw [List.length_cons]
    omega

/-- Settles O40: the first TTL is at most 255 (`chain_length_le_ttl`). -/
theorem forwardingChainsEnd : Obligations.ForwardingChainsEnd := by
  intro hops h
  cases hops with
  | nil => exact Nat.zero_le _
  | cons B hops =>
    have hle := chain_length_le_ttl h
    have hlt := wireByte_lt B 8
    rw [List.length_cons]
    omega

end Sys2Proof.Machine
end

section
/-! PROOFS. Originating a datagram: SEND's failures in their order, and the datagram it sends (42_engine.md R159 to R167). -/

namespace Sys2Proof.Machine

section Send
variable {skip : Bool} {dst nh : Addr} {P : Bytes} {s : State}

theorem execSend_noRoute (hr : lpm s.cfg.routes dst = .noRoute) :
    execSend skip dst P s = .next (s.respond ⟨.noRoute, .none, none⟩) := by
  obtain ⟨-, hx⟩ | ⟨_, hr', -⟩ | ⟨_, hr', -⟩ | ⟨_, hr', -⟩ := execSend_cases skip dst P s
  · exact hx
  all_goals cases hr.symm.trans hr'

theorem execSend_noLocalAddress (hr : lpm s.cfg.routes dst = .route nh) (hv : s.cfg.localValid = false) :
    execSend skip dst P s = .next (s.respond ⟨.noLocalAddress, .none, none⟩) := by
  obtain ⟨hr', -⟩ | ⟨_, -, -, hx⟩ | ⟨_, -, hv', -⟩ | ⟨_, -, hv', -⟩ := execSend_cases skip dst P s
  · cases hr.symm.trans hr'
  · exact hx
  all_goals cases hv.symm.trans hv'

theorem execSend_payloadTooLarge (hr : lpm s.cfg.routes dst = .route nh) (hv : s.cfg.localValid = true)
    (hP : 65515 < P.length) :
    execSend skip dst P s = .next (s.respond ⟨.payloadTooLarge, .none, none⟩) := by
  obtain ⟨hr', -⟩ | ⟨_, -, hv', -⟩ | ⟨_, -, -, -, hx⟩ | ⟨_, -, -, hP', -⟩ := execSend_cases skip dst P s
  · cases hr.symm.trans hr'
  · cases hv.symm.trans hv'
  · exact hx
  · exact absurd hP (Nat.not_lt.mpr hP')

/-- The one success (R165). -/
theorem execSend_sends (hr : lpm s.cfg.routes dst = .route nh) (hv : s.cfg.localValid = true)
    (hP : P.length ≤ 65515) :
    execSend skip dst P s = .next (s.respond ⟨.ok, .none, some (linkSend skip
      (originFields s.config.supportedProto s.cfg.localAddr dst P) P nh)⟩) := by
  obtain ⟨hr', -⟩ | ⟨_, -, hv', -⟩ | ⟨_, -, -, hP', -⟩ | ⟨_, hr', -, -, hx⟩ := execSend_cases skip dst P s
  · cases hr.symm.trans hr'
  · cases hv.symm.trans hv'
  · exact absurd hP' (Nat.not_lt.mpr hP)
  · cases hr.symm.trans hr'
    exact hx

end Send

/-- When some entry of a legal table contains the address, `Lpm` finds a next hop (R116). -/
theorem lpm_of_exists {T : List RouteEntry} {a : Addr} (hT : ∀ e ∈ T, RouteLegal e)
    (h : ∃ e ∈ T, inPrefix e a) : ∃ nh, lpm T a = .route nh := by
  obtain ⟨i, e, hbest, he⟩ := exists_bestAt hT h
  exact ⟨e.nh, lpm_of_bestAt hT hbest he⟩

theorem totalLength_toNat {P : Bytes} (hP : P.length ≤ 65515) : (totalLength P).toNat = 20 + P.length := by
  rw [totalLength, BitVec.toNat_ofNat]
  exact Nat.mod_eq_of_lt (by simp only [headerLen]; omega)

/-- Settles O41: `execSend_sends`, with the sealed header as numbers on the wire. -/
theorem sendOriginatesADatagram : Obligations.SendOriginatesADatagram := by
  intro skip dst P s i e hT hbest he hv hP
  obtain ⟨w0, w1, w2, w4, w6, w8, w9, w12, w16, hzero, hck⟩ := sealHeader_wire skip
    (originFields s.config.supportedProto s.cfg.localAddr dst P) [] _ (List.append_nil _).symm
  exact ⟨_, execSend_sends (lpm_of_bestAt hT hbest he) hv hP, w0, w1, w2.trans (totalLength_toNat hP), w4, w6,
    w8, w9, w12, w16, hzero, fun hs => (hck hs).symm⟩

/-- Settles O42: one lemma for each failure, the earlier ones excluded. -/
theorem sendFailsInOrder : Obligations.SendFailsInOrder := by
  intro skip dst P s hT
  refine ⟨fun hnone => execSend_noRoute (lpm_of_none hT hnone), fun hex hv => ?_, fun hex hv hP => ?_⟩
  · obtain ⟨nh, hr⟩ := lpm_of_exists hT hex
    exact execSend_noLocalAddress hr hv
  · obtain ⟨nh, hr⟩ := lpm_of_exists hT hex
    exact execSend_payloadTooLarge hr hv hP

/-- Settles O43: `execSend_sends` does not ask whose the address is, and a response that fits `SEND` carries a
`LinkSend` or no event (`execSend_fits`). -/
theorem sendNeverLoopsBack : Obligations.SendNeverLoopsBack := by
  refine ⟨fun skip P s i e hT hbest he hv hP => ⟨_, execSend_sends (lpm_of_bestAt hT hbest he) hv hP⟩,
    fun skip dst P s => ?_⟩
  obtain ⟨⟨st, res, ev⟩, hx, rfl, ⟨-, out, nh, rfl⟩ | ⟨rfl, -⟩⟩ := execSend_fits skip dst P s
  · exact ⟨st, _, hx, nofun⟩
  · exact ⟨st, _, hx, nofun⟩

end Sys2Proof.Machine
end

section
/-! PROOFS. Errors and idling: where a step stops, what an operation that fails leaves behind, and the wait between commands (60_exceptions.md R170 to R189; 70_reset_and_hazards.md R190). -/

namespace Sys2Proof.Machine

/-! Where a step stops. -/

/-- Settles O9: of the four things the input can decode to, a step refuses only bytes that are no command. -/
theorem stepStopsOnlyOnNonCommands : Obligations.StepStopsOnlyOnNonCommands := by
  intro s
  cases hd : decode s.input with
  | idle => exact .inl ⟨s, step_of_idle hd⟩
  | command i rest =>
    obtain ⟨s', hx, -⟩ := exec_withInput i (s.withInput rest)
    exact .inl ⟨s', (step_of_command hd).trans hx⟩
  | illegal b rest => exact .inl ⟨_, step_of_illegal hd⟩
  | refused why => exact .inr ⟨why, rfl, step_of_refused hd⟩

/-- Settles O10: an empty input decodes to no command issued. -/
theorem idleStepChangesNothing : Obligations.IdleStepChangesNothing := by
  intro s hin
  have hidle : decode s.input = .idle := by rw [hin, decode]
  exact step_of_idle hidle

/-! What an operation that fails leaves behind. -/

/-- An operation succeeds, or its one response, without an event, is all it does (R170, R183). -/
theorem exec_succeeds_or_only_responds (i : Instr) (s : State) :
    (∃ (t : State) (r : Response), exec i s = .next (t.respond r) ∧ r.status.success = true) ∨
    ∃ r : Response, exec i s = .next (s.respond r) ∧ r.event = none := by
  obtain ⟨st, res, hx, -⟩ | ⟨c, hx, -⟩ | ⟨skip, B, hok, -, -, -, -, hx⟩ |
    ⟨skip, B, nh, hok, -, -, -, -, hx⟩ | ⟨skip, dst, P, nh, -, -, -, -, hx⟩ := exec_cases i s
  · exact .inr ⟨_, hx, rfl⟩
  · exact .inl ⟨_, _, hx, rfl⟩
  · exact .inl ⟨_, _, hx, rfl⟩
  · exact .inl ⟨_, _, hx, rfl⟩
  · exact .inl ⟨_, _, hx, rfl⟩

/-- Settles O48: an operation whose one response is no success can only have responded. -/
theorem errorsWriteAndEmitNothing : Obligations.ErrorsWriteAndEmitNothing := by
  intro i s s' r h hout hfail
  obtain ⟨t, r', hx, hok⟩ | ⟨r', hx, hev⟩ := exec_succeeds_or_only_responds i s
  · rw [response_eq h hout hx, hok] at hfail
    cases hfail
  · obtain rfl := response_eq h hout hx
    cases hx.symm.trans h
    exact ⟨rfl, hev⟩

end Sys2Proof.Machine
end

section
/-! PROOFS. The parameters, which no step writes, and the block between reset and its first configuration (70_reset_and_hazards.md R192, R195). -/

namespace Sys2Proof.Machine

/-! The parameters. -/

/-- Settles O14: a step idles, responds to an illegal opcode, or is an operation, which keeps the parameters
(`exec_config`). -/
theorem noStepChangesTheParameters : Obligations.NoStepChangesTheParameters := by
  intro s s' h
  obtain ⟨-, rfl⟩ | ⟨b, rest, -, rfl⟩ | ⟨i, rest, -, hx⟩ := step_cases h
  · rfl
  · rw [respond_config, withInput_config]
  · rw [exec_config hx, withInput_config]

/-! The block before any configuration. -/

/-- No address is local after reset (R133, R195). -/
theorem resetWith_not_local (c : Config) (n : Nat) :
    ¬ ((State.resetWith c).cfg.localValid = true ∧ n = (State.resetWith c).cfg.localAddr.toNat) :=
  fun ⟨hvalid, _⟩ => Bool.false_ne_true hvalid

/-- The table is empty after reset, and a scan of no entries finds no route (R34, R116). -/
theorem resetWith_lpm (c : Config) (a : Addr) : lpm (State.resetWith c).cfg.routes a = .noRoute := rfl

/-- Settles O16: no address is local, and no address has a route. -/
theorem unconfiguredBlockOnlyDrops : Obligations.UnconfiguredBlockOnlyDrops := by
  intro c skip B P a
  have hl := resetWith_not_local c (wireAddr B 16)
  refine ⟨fun h ht => ?expired, fun h ht => ?noRoute, ?send, ?lookup, fun h => ?classify⟩
  case expired => exact execReceive_expired h hl ht
  case noRoute => exact execReceive_noRoute h hl ht (resetWith_lpm c _)
  case send => exact execSend_noRoute (skip := skip) (P := P) (resetWith_lpm c a)
  case lookup => exact execLookup_noRoute (resetWith_lpm c a)
  case classify => exact execClassify_remote h hl

end Sys2Proof.Machine
end
